-- ==== Sys2Proof/Word.lean ====
section
/-!
DEFINITION. The value of one memory cell and the two parameter modes.
A cell is one signed mathematical integer (00_scope.md R4 and R5, 20_memory.md R34): there are no bits, bytes or words
of bits anywhere in this machine.
-/
namespace Sys2Proof

/-- What one cell of `MEM` holds: a signed integer (10_state.md R19). -/
abbrev Word := Int

/-- A parameter mode (30_encoding.md R54): how an operand's parameter is used. -/
inductive Mode where
  /-- Mode digit 0: the parameter is the address of the operand. -/
  | position
  /-- Mode digit 1: the parameter is the operand. -/
  | immediate
deriving DecidableEq, Repr

end Sys2Proof
end

