-- ==== Sys2Proof/Config.lean ====
section
/-!
DEFINITION. What the spec leaves to the implementation (00_scope.md R4): the cell width `W` and the input sequence
`INPUT`. `N` is the size of the loaded memory and `IMAGE` an argument of the loader (Machine/Loader.lean).
-/
namespace Sys2Proof

/-- Infinite input sequences the model does not write out: `Config.stream name i` is value `i` of the sequence called
`name`. It has no body, so a claim about a machine that reads one holds for every infinite sequence
(92_eei_decisions.md D8; DESIGN CHOICE, log entry 3). -/
opaque Config.stream : Nat → Nat → Int

/-- What follows the listed values of an input sequence. -/
inductive InputTail where
  /-- Nothing: the sequence is finite and the channel signals exhaustion (41_io.md R82). -/
  | exhausted
  /-- The same value for ever; the source's binding is the constant 1 (R82). -/
  | constant (v : Int)
  /-- An infinite sequence that is not written out, `Config.stream name`. -/
  | stream (name : Nat)
deriving DecidableEq, Repr

/-- `INPUT` of 00_scope.md R4: the listed values, then the tail. -/
structure InputSeq where
  given : List Int
  tail : InputTail
deriving DecidableEq, Repr

/-- The parameters of a machine, fixed at reset (00_scope.md R4). -/
structure Params where
  /-- `W`, the number of bits of a cell; `none` is the spec's `W = unbounded` (D1; DESIGN CHOICE, log entry 2). -/
  width : Option Nat
  /-- `INPUT`, the sequence the input channel yields (D8; DESIGN CHOICE, log entry 3). -/
  input : InputSeq
deriving DecidableEq, Repr

/-- The values the spec takes: `W = unbounded`, `INPUT = 1, 1, 1, ...` (R4). -/
def Params.standard : Params := { width := none, input := { given := [], tail := .constant 1 } }

end Sys2Proof
end

