-- ==== Sys2Proof/Syntax.lean ====
section
/-!
DEFINITION. The five instructions of 30_encoding.md R59, one constructor per row of spec/opcode_table.json.
An instruction is what `Decode` makes of the instruction word alone (R60): the operation and the modes. Its parameters
stay in memory at `PC + 1`, `PC + 2`, `PC + 3` and are read when it executes (R55), each read with its own bounds check.
-/
namespace Sys2Proof

/-- The instruction set, closed at five (00_scope.md R1). -/
inductive Instr where
  /-- ADD, opcode 1: `m1` and `m2` are the modes of the two sources, `m3` the destination's digit, decoded and not
  applied (R57). -/
  | add (m1 m2 m3 : Mode)
  /-- MUL, opcode 2: operands as ADD's. -/
  | mul (m1 m2 m3 : Mode)
  /-- IN, opcode 3: `m1` is the destination's digit, decoded and not applied (R57). -/
  | inp (m1 : Mode)
  /-- OUT, opcode 4: `m1` is the mode of the source. -/
  | out (m1 : Mode)
  /-- HLT, opcode 99. -/
  | hlt
deriving DecidableEq, Repr

end Sys2Proof
end

