-- ==== Sys2Proof/WellFormed.lean ====
section
/-!
DEFINITION. The checks on what is given to the machine: an instruction, an instruction word, the parameters.
-/
namespace Sys2Proof

/-- Every term of `Instr` is an instruction the machine has: a mode is one of two constructors, so a bad mode digit
cannot be written down. It is `legalWords` that refuses words. -/
def Instr.wf : Instr → Bool
  | .add _ _ _ => true
  | .mul _ _ _ => true
  | .inp _ => true
  | .out _ => true
  | .hlt => true

/-- The 21 legal instruction words, the `legal_words` of spec/opcode_table.json row by row (30_encoding.md R59). -/
def legalWords : List Int :=
  [1, 101, 1001, 1101, 10001, 10101, 11001, 11101] ++
  [2, 102, 1002, 1102, 10002, 10102, 11002, 11102] ++
  [3, 103] ++ [4, 104] ++ [99]

/-- A finite width has at least one bit: 00_scope.md R5 writes the range as `-2^(W-1) .. 2^(W-1)-1`
(DESIGN CHOICE, log entry 17). -/
def Params.wf (p : Params) : Bool :=
  match p.width with
  | none => true
  | some w => decide (1 ≤ w)

end Sys2Proof
end

