-- ==== Sys2Proof/Decode.lean ====
section
/-!
DEFINITION. Decoding an instruction word (30_encoding.md R52 and R60 to R64), and after it the encoder, written from the
word patterns of R59.
-/
namespace Sys2Proof

/-- Why a word is no instruction. -/
inductive DecodeError where
  /-- R61 and R64: `value` is `w mod 100`, or the whole word when it is negative. -/
  | unknownOpcode (value : Int)
  /-- R62 and R63: `digit` stands at mode position `slot` (1 is the hundreds digit). -/
  | unknownMode (digit slot : Nat)
deriving DecidableEq, Repr

/-- `digit(w, k)`: the decimal digit of weight `10^k` (00_scope.md R5). -/
def digit (w k : Nat) : Nat := w / 10 ^ k % 10

/-- The decimal digits of `n` from the ones digit up, without leading zeros; `fuel` bounds their number. -/
def decimalDigits : (fuel n : Nat) → List Nat
  | 0, _ => []
  | fuel + 1, n => if n = 0 then [] else n % 10 :: decimalDigits fuel (n / 10)

/-- The greatest good digit at mode position `k`: 1 where it belongs to an operand (R62), 0 above (R63; the spec's
decision D6, log entry 6). -/
def maxDigit (nops k : Nat) : Nat := if k ≤ nops then 1 else 0

/-- The loop of R60 over the digits above the opcode, of which the first stands at mode position `k`: the first digit that
is not good is reported. -/
def firstBadDigit (nops : Nat) : (k : Nat) → List Nat → Option DecodeError
  | _, [] => none
  | k, d :: ds =>
    if d ≤ maxDigit nops k then firstBadDigit nops (k + 1) ds else some (.unknownMode d k)

/-- 0 is Position and 1 is Immediate (R54); asked only of digits `firstBadDigit` has let pass. -/
def modeOfDigit (d : Nat) : Mode := if d = 1 then .immediate else .position

/-- The opcodes (R59): the number of operands (`nops` of R60) and the instruction made of the three mode digits. -/
def opcodeRow : Nat → Option (Nat × (Mode → Mode → Mode → Instr))
  | 1 => some (3, fun m1 m2 m3 => .add m1 m2 m3)
  | 2 => some (3, fun m1 m2 m3 => .mul m1 m2 m3)
  | 3 => some (1, fun m1 _ _ => .inp m1)
  | 4 => some (1, fun m1 _ _ => .out m1)
  | 99 => some (0, fun _ _ _ => .hlt)
  | _ => none

/-- `Decode` of R60 on a word that is not negative: the opcode first, then the mode digits from the lowest up. -/
def decodeNat (w : Nat) : Except DecodeError Instr :=
  match opcodeRow (w % 100) with
  | none => .error (.unknownOpcode (w % 100 : Nat))
  | some (nops, instr) =>
    match firstBadDigit nops 1 (decimalDigits w (w / 100)) with
    | some e => .error e
    | none => .ok (instr (modeOfDigit (digit w 2)) (modeOfDigit (digit w 3)) (modeOfDigit (digit w 4)))

/-- `Decode` of R60, total on every integer; a negative word is no instruction (R64; the spec's
decision D7, log entry 6). -/
def decode (w : Int) : Except DecodeError Instr :=
  if w < 0 then .error (.unknownOpcode w) else decodeNat w.toNat

/-- What the host asks of the decoder: an instruction word is one cell, so the `nbits` low bits of `w` are its value
(DESIGN CHOICE, log entry 19). -/
def decodeTableWord (nbits w : Nat) : Option Instr := (decode ((w % 2 ^ nbits : Nat) : Int)).toOption

/-- The digit that stands for a mode (R54). -/
def Mode.toDigit : Mode → Nat
  | .position => 0
  | .immediate => 1

/-- The instruction word of an instruction, from the patterns `CBA01`, `CBA02`, `00A03`, `00A04`, `00099` of R59. -/
def encode : Instr → Int
  | .add m1 m2 m3 => (m3.toDigit * 10000 + m2.toDigit * 1000 + m1.toDigit * 100 + 1 : Nat)
  | .mul m1 m2 m3 => (m3.toDigit * 10000 + m2.toDigit * 1000 + m1.toDigit * 100 + 2 : Nat)
  | .inp m1 => (m1.toDigit * 100 + 3 : Nat)
  | .out m1 => (m1.toDigit * 100 + 4 : Nat)
  | .hlt => 99

/-- The arity: how many cells the instruction occupies, its word included (R50, R51). -/
def Instr.arity : Instr → Nat
  | .add _ _ _ => 4
  | .mul _ _ _ => 4
  | .inp _ => 2
  | .out _ => 2
  | .hlt => 1

end Sys2Proof
end

