-- ==== Sys2Proof/Machine/Flags.lean ====
section
/-!
DEFINITION. The machine has no flags (10_state.md R11). The one condition an instruction computes from a result is
whether it fits a cell, and it is computed only under a finite width (40_arithmetic.md R73).
-/
namespace Sys2Proof.Machine

/-- `v` fits a cell of the width: always when unbounded (R72), else `-2^(W-1) <= v <= 2^(W-1)-1` (R73). -/
def fitsCell (width : Option Nat) (v : Int) : Bool :=
  match width with
  | none => true
  | some w => decide (-((2 ^ (w - 1) : Nat) : Int) ≤ v ∧ v ≤ ((2 ^ (w - 1) : Nat) : Int) - 1)

end Sys2Proof.Machine
end

