-- ==== Sys2Proof/Machine/State.lean ====
section
/-!
DEFINITION. The state of the machine: the six elements of 10_state.md (R12, R15, R17, R19, R20, R21) and the parameters
fixed at reset (00_scope.md R4), all plain data; the reset state; and the host's two kinds of stop, which this machine
does not use for anything the spec describes.
-/
namespace Sys2Proof.Machine

/-- `STATUS`, the run state (10_state.md R15). -/
inductive Status where
  | running
  | halted
  | faulted
deriving DecidableEq, Repr

/-- The fault kinds (60_exceptions.md R100). -/
inductive FaultKind where
  /-- Malformed program text, raised by the loader (R106). -/
  | parseError
  /-- R101. -/
  | unknownOpcode
  /-- R102. -/
  | unknownParameterMode
  /-- R103. -/
  | addressOutOfBounds
  /-- R104. -/
  | inputExhausted
  /-- Under a finite `W` only (R105). -/
  | arithmeticOverflow
deriving DecidableEq, Repr

/-- What `raise` is given (00_scope.md R7): the kind, the offending value and, for `unknownParameterMode`, the mode
position. -/
structure Cause where
  kind : FaultKind
  value : Int
  slot : Option Nat
deriving DecidableEq, Repr

/-- `FAULT` when it is not `none` (10_state.md R17): the cause and the `PC` at fault. -/
structure FaultRecord where
  kind : FaultKind
  value : Int
  slot : Option Nat
  pc : Nat
deriving DecidableEq, Repr

/-- `MEM` (10_state.md R19) as (address, value) pairs. An address that is not listed is no cell: reading it is out of
bounds (20_memory.md R31). The canonical form is `Memory.wf`: the listed addresses are 0, 1, ..., N - 1 in this order
(DESIGN CHOICE, log entry 1). -/
abbrev Memory := List (Nat × Int)

/-- The whole state of the machine. -/
structure State where
  /-- `MEM` (R19). -/
  mem : Memory
  /-- `PC`, counted in cells (R12). -/
  pc : Nat
  /-- `STATUS` (R15). -/
  status : Status
  /-- `FAULT` (R17). -/
  fault : Option FaultRecord
  /-- `IN_POS`, the number of input values consumed (R20). -/
  inPos : Nat
  /-- `OUT_LOG`, the values emitted, oldest first (R21). -/
  outLog : List Int
  /-- `W` and `INPUT` (00_scope.md R4); no step changes them. -/
  params : Params
deriving DecidableEq, Repr

/-- The machine right after reset (R23) with nothing loaded: every element at its reset value, `MEM` without a cell
(DESIGN CHOICE, log entry 4). `State.loadImage` and `State.loadText` are the reset that is given a program (70 R120). -/
def State.reset : State :=
  { mem := [], pc := 0, status := .running, fault := none, inPos := 0, outLog := [], params := Params.standard }

/-- The host's stops by a fault. There is none: each of the six fault kinds is a NEXT state with `STATUS = Faulted`
(60_exceptions.md R108), so nothing raises a `Fault` and no constructor is needed
(DESIGN CHOICE, log entry 13). -/
inductive Fault where
deriving DecidableEq, Repr

/-- The host's stops by a refusal. -/
inductive Refusal where
  /-- An instruction without a meaning; raised by `exec`'s arm alone, and no arm raises it now: every instruction has
  its meaning. Safe: the machine stops. -/
  | notModelled (mnemonic : String)
deriving DecidableEq, Repr

end Sys2Proof.Machine
end

