-- ==== Sys2Proof/Machine/Ops.lean ====
section
/-!
DEFINITION. The named operations over the state: memory (20_memory.md), the program counter, the two channels (41_io.md),
taking a fault (60_exceptions.md R108) and fetching an instruction (42_control.md R94). There is no return from a fault
(R109).
-/
namespace Sys2Proof.Machine

/-- The value of the cell at `a`, if there is such a cell. -/
def Memory.read : Memory → Nat → Option Int
  | [], _ => none
  | (k, x) :: m, a => if k = a then some x else Memory.read m a

/-- `MEM[a] <- v`; an address that is no cell changes nothing (there is no growth, 20_memory.md R31). -/
def Memory.write : Memory → Nat → Int → Memory
  | [], _, _ => []
  | (k, x) :: m, a, v => if k = a then (k, v) :: m else (k, x) :: Memory.write m a v

/-- `N`, the number of cells (10_state.md R19). -/
def Memory.size (m : Memory) : Nat := m.length

/-- The canonical form: the cells are 0, 1, ..., N - 1, each once and in this order (10_state.md R19). -/
abbrev Memory.wf (m : Memory) : Prop := m.map Prod.fst = List.range m.length

/-- The memory whose cell `i` is value `i` of the list (10_state.md R23). -/
def Memory.ofList (vs : List Int) : Memory := vs.zipIdx.map fun x => (x.2, x.1)

/-- The memory with cells of 0 added until it has at least `n`: only the placing of a program uses it
(`State.placeInstr`), never an instruction. -/
def Memory.extendTo (m : Memory) (n : Nat) : Memory :=
  m ++ (List.range' m.length (n - m.length)).map fun a => (a, 0)

/-- The cause of an access outside memory (60_exceptions.md R103). -/
def badAddress (a : Int) : Cause := { kind := .addressOutOfBounds, value := a, slot := none }

/-- `MemRead(a, 1)` (00_scope.md R7; 20_memory.md R31). -/
def memRead (s : State) (a : Int) : Except Cause Int :=
  if a < 0 then .error (badAddress a)
  else match s.mem.read a.toNat with
    | some v => .ok v
    | none => .error (badAddress a)

/-- `MemWrite(a, 1, v)` (00_scope.md R7) once the address has been resolved. -/
def State.writeCell (s : State) (a : Nat) (v : Int) : State := { s with mem := s.mem.write a v }

/-- `pc <- PC + n` (10_state.md R13). -/
def State.advance (s : State) (n : Nat) : State := { s with pc := s.pc + n }

/-- `STATUS <- Halted` (42_control.md R90). -/
def State.halt (s : State) : State := { s with status := .halted }

/-- `Emit(v)` (00_scope.md R7, 41_io.md R83). -/
def State.emit (s : State) (v : Int) : State := { s with outLog := s.outLog ++ [v] }

/-- `IN_POS <- IN_POS + 1` (41_io.md R80). -/
def State.consumeInput (s : State) : State := { s with inPos := s.inPos + 1 }

/-- Taking a fault: `STATUS` and `FAULT` are written, with the `PC` of the faulting instruction, and nothing else
changes (60_exceptions.md R108). -/
def State.raise (c : Cause) (s : State) : State :=
  { s with status := .faulted, fault := some { kind := c.kind, value := c.value, slot := c.slot, pc := s.pc } }

/-- Ends an instruction begun in `s`: it completes in the state it has computed, or it raises its fault in `s`, so that
a faulting instruction has no partial effect (60_exceptions.md R108). -/
def settle (s : State) (r : Except Cause State) : Host.Outcome State Fault Refusal :=
  match r with
  | .ok t => .next t
  | .error c => .next (s.raise c)

/-- `INPUT[i]`, if the sequence has that many values (41_io.md R82). -/
def inputAt (q : InputSeq) (i : Nat) : Option Int :=
  match q.given[i]? with
  | some v => some v
  | none =>
    match q.tail with
    | .exhausted => none
    | .constant v => some v
    | .stream name => some (Config.stream name (i - q.given.length))

/-- `length(INPUT)` when the sequence is finite (00_scope.md R7). -/
def inputLength (q : InputSeq) : Option Nat :=
  match q.tail with
  | .exhausted => some q.given.length
  | .constant _ => none
  | .stream _ => none

/-- The value the input channel yields next, or `InputExhausted(IN_POS)` (60_exceptions.md R104). It is not consumed
yet: the value is checked first (41_io.md R80, 90_conflicts.md C8). -/
def nextInput (s : State) : Except Cause Int :=
  match inputAt s.params.input s.inPos with
  | some v => .ok v
  | none => .error { kind := .inputExhausted, value := s.inPos, slot := none }

/-- Lets a value that fits a cell pass and raises `ArithmeticOverflow` for any other (40_arithmetic.md R73). -/
def checkFits (s : State) (v : Int) : Except Cause Int :=
  if fitsCell s.params.width v then .ok v else .error { kind := .arithmeticOverflow, value := v, slot := none }

/-- The fault a word that is no instruction raises (60_exceptions.md R101, R102). -/
def decodeCause : DecodeError → Cause
  | .unknownOpcode v => { kind := .unknownOpcode, value := v, slot := none }
  | .unknownMode d k => { kind := .unknownParameterMode, value := d, slot := some k }

/-- Fetch and decode (42_control.md R94): the word at `PC` is read like any other cell, then decoded. -/
def fetchInstr (s : State) : Except Cause Instr :=
  match memRead s s.pc with
  | .error c => .error c
  | .ok w =>
    match decode w with
    | .error e => .error (decodeCause e)
    | .ok i => .ok i

/-- A step asked for in a terminal state (42_control.md R96; the spec's decision D24): nothing happens. -/
def idle (s : State) : Host.Outcome State Fault Refusal := .next s

/-- The state in which the next step fetches the word `w` with parameter cells of 0: the cells at `PC` to `PC + 3` hold
them, memory being extended where it ends before, and the machine is `Running` (DESIGN CHOICE, log entry 4). -/
def State.placeInstr (s : State) (w : Int) : State :=
  { s with
    mem := ((((s.mem.extendTo (s.pc + 4)).write s.pc w).write (s.pc + 1) 0).write (s.pc + 2) 0).write (s.pc + 3) 0
    status := .running
    fault := none }

end Sys2Proof.Machine
end

