-- ==== Sys2Proof/Machine/Operands.lean ====
section
/-!
DEFINITION. The operand resolver (30_encoding.md R55 to R58).
-/
namespace Sys2Proof.Machine

/-- The parameter of operand `k`: the cell at `PC + k`, its slot (R55). -/
def readSlot (s : State) (k : Nat) : Except Cause Int := memRead s ((s.pc + k : Nat) : Int)

/-- `ReadOperand(k, mode)` (R56): the parameter itself in Immediate mode, the cell it addresses in Position mode. -/
def readOperand (s : State) (k : Nat) (m : Mode) : Except Cause Int := do
  let param ← readSlot s k
  match m with
  | .immediate => .ok param
  | .position => memRead s param

/-- `DestAddress(k)` (R57): the parameter as an address of a cell, whatever the mode digit. -/
def destAddress (s : State) (k : Nat) : Except Cause Nat := do
  let param ← readSlot s k
  let _ ← memRead s param
  .ok param.toNat

end Sys2Proof.Machine
end

