-- ==== Sys2Proof/Machine/Arithmetic.lean ====
section
/-!
DEFINITION. ADD and MUL (40_arithmetic.md).
-/
namespace Sys2Proof.Machine

/-- What ADD and MUL share: the two sources, the destination address, the exact result, the width check, the one write
and `PC + 4`, in this order (R70, R71; the order of faults is 60_exceptions.md R107). -/
def aluInstr (op : Int → Int → Int) (m1 m2 : Mode) (s : State) : Except Cause State := do
  let a ← readOperand s 1 m1
  let b ← readOperand s 2 m2
  let d ← destAddress s 3
  let r ← checkFits s (op a b)
  .ok ((s.writeCell d r).advance 4)

/-- ADD (R70); `m3` is not consulted (30_encoding.md R57). -/
def execAdd (m1 m2 _m3 : Mode) (s : State) : Host.Outcome State Fault Refusal :=
  settle s (aluInstr (fun a b => a + b) m1 m2 s)

/-- MUL (R71); `m3` is not consulted (30_encoding.md R57). -/
def execMul (m1 m2 _m3 : Mode) (s : State) : Host.Outcome State Fault Refusal :=
  settle s (aluInstr (fun a b => a * b) m1 m2 s)

end Sys2Proof.Machine
end

