-- ==== Sys2Proof/Machine/Channels.lean ====
section
/-!
DEFINITION. IN and OUT (41_io.md).
-/
namespace Sys2Proof.Machine

/-- The effect of IN (R80): the destination is resolved before a value is taken, and the value is consumed only when
nothing can fault any more. -/
def inputInstr (s : State) : Except Cause State := do
  let d ← destAddress s 1
  let x ← nextInput s
  let v ← checkFits s x
  .ok ((s.consumeInput.writeCell d v).advance 2)

/-- The effect of OUT (R81). -/
def outputInstr (m1 : Mode) (s : State) : Except Cause State := do
  let a ← readOperand s 1 m1
  .ok ((s.emit a).advance 2)

/-- IN (R80); `m1` is not consulted (30_encoding.md R57). -/
def execInp (_m1 : Mode) (s : State) : Host.Outcome State Fault Refusal := settle s (inputInstr s)

/-- OUT (R81). -/
def execOut (m1 : Mode) (s : State) : Host.Outcome State Fault Refusal := settle s (outputInstr m1 s)

end Sys2Proof.Machine
end

