-- ==== Sys2Proof/Machine/Control.lean ====
section
/-!
DEFINITION. HLT (42_control.md R90), the only instruction besides the arithmetic and the channels (R92, R93).
-/
namespace Sys2Proof.Machine

/-- HLT (R90): `STATUS <- Halted`, `pc <- PC + 1`, nothing else. -/
def execHlt (s : State) : Host.Outcome State Fault Refusal := .next (s.halt.advance 1)

end Sys2Proof.Machine
end

