-- ==== Sys2Proof/Machine/Step.lean ====
section
/-!
DEFINITION. One step (42_control.md R94), taken only while `STATUS = Running` (R96), and the host's placing of an
instruction where the step fetches.
-/
namespace Sys2Proof.Machine

/-- `Step()` of R94: fetch, decode, execute; a fault of the fetch or of the decoder is taken like any other. -/
def step (s : State) : Host.Outcome State Fault Refusal :=
  match s.status with
  | .running =>
    match fetchInstr s with
    | .error c => settle s (.error c)
    | .ok i => exec i s
  | .halted => idle s
  | .faulted => idle s

/-- `s` with the instruction whose word is the `nbits` low bits of `w` where `step` fetches next, its parameter cells 0
(DESIGN CHOICE, log entry 4). -/
def State.withFetchWord (s : State) (nbits w : Nat) : State := s.placeInstr ((w % 2 ^ nbits : Nat) : Int)

end Sys2Proof.Machine
end

