-- ==== Sys2Proof/Machine/Loader.lean ====
section
/-!
DEFINITION. Reset with a program: the loader, the grammar of the program text and the failed load (70_reset_and_hazards.md
R120 and R124 to R128).
-/
namespace Sys2Proof.Machine

/-- The white space that is trimmed: space, tab, carriage return, line feed (R125). -/
def isSpaceChar (c : Char) : Bool := c = ' ' || c = '\t' || c = '\r' || c = '\n'

/-- The value of a decimal digit character. -/
def digitValue (c : Char) : Option Nat := if '0' ≤ c ∧ c ≤ '9' then some (c.toNat - '0'.toNat) else none

/-- The text without the white space at its two ends (R125). -/
def trimText (t : List Char) : List Char := ((t.dropWhile isSpaceChar).reverse.dropWhile isSpaceChar).reverse

/-- The parts of the text between its commas; a text without a comma is one part. -/
def splitCommas : List Char → List (List Char)
  | [] => [[]]
  | c :: cs =>
    match splitCommas cs with
    | [] => [[c]]
    | p :: ps => if c = ',' then [] :: p :: ps else (c :: p) :: ps

/-- The number the digits spell after those already read as `n`; `none` at a character that is no digit (R126). -/
def digitsValue : (n : Nat) → List Char → Option Nat
  | n, [] => some n
  | n, c :: cs =>
    match digitValue c with
    | some d => digitsValue (10 * n + d) cs
    | none => none

/-- `digit+` (R125): at least one digit. -/
def natText (t : List Char) : Option Nat := if t.isEmpty then none else digitsValue 0 t

/-- `"-"? digit+` (R125) and its value (R126). -/
def elementText (t : List Char) : Option Int :=
  match t with
  | '-' :: ds => (natText ds).map fun (n : Nat) => -(n : Int)
  | ds => (natText ds).map fun (n : Nat) => (n : Int)

/-- Every element's value, in order; `none` if one is malformed. -/
def elementsText : List (List Char) → Option (List Int)
  | [] => some []
  | p :: ps =>
    match elementText p, elementsText ps with
    | some v, some vs => some (v :: vs)
    | _, _ => none

/-- The image a program text parses to, `none` where it is malformed (R124, R125; the spec's decision D16, log entry
12). -/
def parseText (t : List Char) : Option (List Int) := elementsText (splitCommas (trimText t))

/-- The state a successful load leaves (10_state.md R23). -/
def State.loaded (p : Params) (image : List Int) : State :=
  { mem := Memory.ofList image, pc := 0, status := .running, fault := none, inPos := 0, outLog := [], params := p }

/-- The state a failed load leaves (R128). -/
def State.loadFailed (p : Params) : State :=
  { mem := [], pc := 0, status := .faulted, fault := some { kind := .parseError, value := 0, slot := none, pc := 0 },
    inPos := 0, outLog := [], params := p }

/-- An image that loads: it has a cell (R125, `N >= 1`) and each value fits one (R126). -/
def imageLoads (p : Params) (image : List Int) : Bool := !image.isEmpty && image.all (fitsCell p.width)

/-- `reset(IMAGE, INPUT)` of R120 (DEDUCED, log entry 5). -/
def State.loadImage (p : Params) (image : List Int) : State :=
  if imageLoads p image then State.loaded p image else State.loadFailed p

/-- Reset with a program text (R120, R124). -/
def State.loadText (p : Params) (text : List Char) : State :=
  match parseText text with
  | some image => State.loadImage p image
  | none => State.loadFailed p

end Sys2Proof.Machine
end

