-- ==== Sys2Proof/Machine/HostView.lean ====
section
/-!
DEFINITION. What the host does with the machine besides loading it (70_reset_and_hazards.md R130, R131): it runs it
(42_control.md R95) and reads its state, with the numbers the spec gives to names (10_state.md R15, 60_exceptions.md R100).
-/
namespace Sys2Proof.Machine

/-- The numbers of `STATUS` (10_state.md R15). -/
def Status.code : Status → Nat
  | .running => 0
  | .halted => 1
  | .faulted => 2

/-- The numbers of the fault kinds (60_exceptions.md R100). -/
def FaultKind.code : FaultKind → Nat
  | .parseError => 1
  | .unknownOpcode => 2
  | .unknownParameterMode => 3
  | .addressOutOfBounds => 4
  | .inputExhausted => 5
  | .arithmeticOverflow => 6

/-- The number of `FAULT`'s kind, 0 for `none` (60_exceptions.md R100). -/
def State.faultCode (s : State) : Nat :=
  match s.fault with
  | none => 0
  | some r => r.kind.code

/-- What the host may read (70 R130): `STATUS`, `FAULT`, `PC`, `MEM`, `OUT_LOG`. -/
structure Report where
  status : Status
  fault : Option FaultRecord
  pc : Nat
  mem : List Int
  outLog : List Int
deriving DecidableEq, Repr

/-- Reading the state (70 R130). -/
def State.report (s : State) : Report :=
  { status := s.status, fault := s.fault, pc := s.pc, mem := s.mem.map Prod.snd, outLog := s.outLog }

/-- `Run()` (42_control.md R95) for at most `fuel` steps. -/
def runFor : (fuel : Nat) → State → Host.Outcome State Fault Refusal
  | 0, s => .next s
  | fuel + 1, s =>
    match s.status with
    | .running =>
      match step s with
      | .next t => runFor fuel t
      | .fault r => .fault r
      | .refused r => .refused r
    | .halted => .next s
    | .faulted => .next s

/-- The number of steps that ends every run (42_control.md R97). -/
def runBound (s : State) : Nat := (s.mem.size + 1) / 2 + 1

/-- `Run()` (42_control.md R95): its bound loses no run (R97; DEDUCED, log entry 18). -/
def run (s : State) : Host.Outcome State Fault Refusal := runFor (runBound s) s

end Sys2Proof.Machine
end

