-- ==== Sys2Proof/Machine/Listing.lean ====
section
/-!
DEFINITION. The listing syntax of the spec (30_encoding.md R67 and R68) as data, the cells a line emits, and the program
text of an image (R66).
-/
namespace Sys2Proof.Machine

/-- A source operand: `[n]` is Position, `#n` is Immediate (R67). -/
inductive SourceOperand where
  | cell (n : Int)
  | value (n : Int)
deriving DecidableEq, Repr

/-- A destination operand: `[n]` has mode digit 0, `[n]!` mode digit 1 (R67). -/
inductive DestOperand where
  | cell (n : Int)
  | marked (n : Int)
deriving DecidableEq, Repr

/-- A line of a listing: an instruction (R67) or the directive `DATA n` (R68). -/
inductive Line where
  | add (a b : SourceOperand) (d : DestOperand)
  | mul (a b : SourceOperand) (d : DestOperand)
  | inp (d : DestOperand)
  | out (a : SourceOperand)
  | hlt
  | data (n : Int)
deriving DecidableEq, Repr

/-- The mode a source operand is written in. -/
def SourceOperand.mode : SourceOperand → Mode
  | .cell _ => .position
  | .value _ => .immediate

/-- The parameter of a source operand. -/
def SourceOperand.param : SourceOperand → Int
  | .cell n => n
  | .value n => n

/-- The mode digit a destination operand is written with. -/
def DestOperand.mode : DestOperand → Mode
  | .cell _ => .position
  | .marked _ => .immediate

/-- The parameter of a destination operand. -/
def DestOperand.param : DestOperand → Int
  | .cell n => n
  | .marked n => n

/-- The instruction a line stands for; `DATA` is none (R68). -/
def Line.instr : Line → Option Instr
  | .add a b d => some (.add a.mode b.mode d.mode)
  | .mul a b d => some (.mul a.mode b.mode d.mode)
  | .inp d => some (.inp d.mode)
  | .out a => some (.out a.mode)
  | .hlt => some .hlt
  | .data _ => none

/-- The cells a line emits (R67, R68): the instruction word, then the parameters in operand order. -/
def Line.cells : Line → List Int
  | .add a b d => [encode (.add a.mode b.mode d.mode), a.param, b.param, d.param]
  | .mul a b d => [encode (.mul a.mode b.mode d.mode), a.param, b.param, d.param]
  | .inp d => [encode (.inp d.mode), d.param]
  | .out a => [encode (.out a.mode), a.param]
  | .hlt => [encode .hlt]
  | .data n => [n]

/-- The image of a listing, which gives the cells from address 0 up. -/
def assemble (lines : List Line) : List Int := lines.flatMap Line.cells

/-- The decimal digits of `n` as characters, the highest first; 0 is one digit. -/
def natChars (n : Nat) : List Char :=
  if n = 0 then ['0'] else (decimalDigits n n).reverse.map fun d => Char.ofNat ('0'.toNat + d)

/-- An integer as an element of the program text (R125). -/
def intChars (v : Int) : List Char := if v < 0 then '-' :: natChars v.natAbs else natChars v.natAbs

/-- The program text of an image: one element per cell, in order (R66). -/
def imageText : List Int → List Char
  | [] => []
  | [v] => intChars v
  | v :: vs => intChars v ++ ',' :: imageText vs

end Sys2Proof.Machine
end

