-- ==== Sys2Proof/Safety.lean ====
section
/-!
DEFINITION. The terms in which claims are made: the invariant of the machine, the two ends of a run (42_control.md R98),
and the spec's own reading of an operand, a destination and a fault, each over one read of one cell and none over the
model's resolver.
-/
namespace Sys2Proof

open Machine

/-- `MEM[a]` for an address that may be negative: `none` when there is no such cell (20_memory.md R31). -/
def cellAt (s : State) (a : Int) : Option Int := if 0 ≤ a then s.mem.read a.toNat else none

/-- Source operand `k` in mode `m` has the value `v` (30_encoding.md R56). -/
def OperandReads (s : State) (k : Nat) (m : Mode) (v : Int) : Prop :=
  ∃ param, s.mem.read (s.pc + k) = some param ∧
    match m with
    | .immediate => v = param
    | .position => cellAt s param = some v

/-- Resolving operand `k` in mode `m` meets its first bad address at `a`: its slot, or the cell a Position operand
addresses (30_encoding.md R55, R56). -/
def OperandFaultsAt (s : State) (k : Nat) (m : Mode) (a : Int) : Prop :=
  (s.mem.read (s.pc + k) = none ∧ a = (s.pc + k : Nat)) ∨
    (m = .position ∧ s.mem.read (s.pc + k) = some a ∧ cellAt s a = none)

/-- Destination operand `k` is the cell `d` (30_encoding.md R57). -/
def DestIs (s : State) (k d : Nat) : Prop :=
  s.mem.read (s.pc + k) = some (d : Int) ∧ (s.mem.read d).isSome = true

/-- Resolving destination operand `k` meets its first bad address at `a`; the mode digit does not matter
(30_encoding.md R57). -/
def DestFaultsAt (s : State) (k : Nat) (a : Int) : Prop := OperandFaultsAt s k .position a

/-- The state after a fault of the instruction at `PC` in `s` (60_exceptions.md R108). -/
def faultedWith (s : State) (kind : FaultKind) (value : Int) (slot : Option Nat) : State :=
  { s with status := .faulted, fault := some { kind := kind, value := value, slot := slot, pc := s.pc } }

/-- The word at `PC` is the instruction `i`. -/
def AtInstr (s : State) (i : Instr) : Prop := ∃ w, s.mem.read s.pc = some w ∧ decode w = .ok i

/-- What every state of a run satisfies. -/
structure Inv (s : State) : Prop where
  /-- The cells are 0, ..., N - 1 (10_state.md R19). -/
  memForm : s.mem.wf
  /-- `0 <= PC <= N` (10_state.md R14). -/
  pcInRange : s.pc ≤ s.mem.size
  /-- `FAULT != none` exactly when `STATUS = Faulted` (10_state.md R17). -/
  faultStatus : s.fault.isSome = true ↔ s.status = .faulted
  /-- `FAULT.pc` is `PC` (42_control.md R98). -/
  faultPc : ∀ r, s.fault = some r → r.pc = s.pc
  /-- Only `UnknownParameterMode` records a slot, and it always does (10_state.md R17). -/
  faultSlot : ∀ r, s.fault = some r → (r.slot.isSome = true ↔ r.kind = .unknownParameterMode)
  /-- Every cell holds a value of the width (40_arithmetic.md R73). -/
  cellsFit : ∀ x ∈ s.mem, fitsCell s.params.width x.2 = true
  /-- No more values are consumed than there are (41_io.md R82). -/
  inputPos : ∀ n, inputLength s.params.input = some n → s.inPos ≤ n

/-- A good end (42_control.md R98): `Halted`, no fault, `PC` just after a cell that holds 99. -/
def GoodEnd (s : State) : Prop :=
  s.status = .halted ∧ s.fault = none ∧ ∃ h, s.pc = h + 1 ∧ s.mem.read h = some 99

/-- A bad end (42_control.md R98): `Faulted`, with a diagnostic whose `pc` is `PC`. -/
def BadEnd (s : State) : Prop := s.status = .faulted ∧ ∃ r, s.fault = some r ∧ r.pc = s.pc

/-- The source operand `a` of a listing is written with the mode digit `digit` and the parameter `param`: `[n]` has digit
0 and `#n` digit 1 (30_encoding.md R67). -/
def SourceWritten (a : SourceOperand) (digit : Nat) (param : Int) : Prop :=
  (a = .cell param ∧ digit = 0) ∨ (a = .value param ∧ digit = 1)

/-- The destination operand `d` of a listing is written with the mode digit `digit` and the parameter `param`: `[n]` has
digit 0 and `[n]!` digit 1 (30_encoding.md R67). -/
def DestWritten (d : DestOperand) (digit : Nat) (param : Int) : Prop :=
  (d = .cell param ∧ digit = 0) ∨ (d = .marked param ∧ digit = 1)

/-- A digit of the program text (70_reset_and_hazards.md R125). -/
def IsDigit (c : Char) : Prop := '0' ≤ c ∧ c ≤ '9'

/-- White space of the program text: space, tab, carriage return or line feed (R125). -/
def IsSpace (c : Char) : Prop := c ∈ [' ', '\t', '\r', '\n']

/-- The number a string of decimal digits spells (R126). -/
def digitsNumber (ds : List Char) : Nat := ds.foldl (fun n c => 10 * n + (c.toNat - 48)) 0

/-- `element ::= "-"? digit+` of R125, with its value (R126). -/
def IsElement (t : List Char) (v : Int) : Prop :=
  ∃ ds, ds ≠ [] ∧ (∀ c ∈ ds, IsDigit c) ∧
    ((t = ds ∧ v = (digitsNumber ds : Int)) ∨ (t = '-' :: ds ∧ v = -(digitsNumber ds : Int)))

/-- `text ::= ws* list ws*` and `list ::= element ( "," element )*` of R125, with the image they give (R124). -/
def IsProgramText (t : List Char) (image : List Int) : Prop :=
  ∃ before after elements, (∀ c ∈ before, IsSpace c) ∧ (∀ c ∈ after, IsSpace c) ∧ elements ≠ [] ∧
    List.Forall₂ IsElement elements image ∧ t = before ++ List.intercalate [','] elements ++ after

end Sys2Proof
end

