-- ==== Sys2Proof/Certificates/Slice0/Obligations.lean ====
section
/-!
DEFINITION. The statements about the machine, each from the rules of spec/ its docstring names. A docstring that says
'decision Dn' names a choice of the spec's own (92_eei_decisions.md) that the statement, or a clause of it, rests on.
-/

section
open Sys2Proof Sys2Proof.Machine

/-! ### Words and their decoding -/

/-- 30_encoding.md section 3: a word decodes to an instruction exactly when it is that instruction's word, so decoding
inverts encoding and no other word is an instruction. -/
def Obligations.DecodeInvertsEncode : Prop :=
  ∀ (w : Int) (i : Instr), decode w = .ok i ↔ w = encode i

/-- 30_encoding.md section 3: the words that decode are the 21 of the opcode table. -/
def Obligations.LegalWordsAreTheOpcodeTable : Prop :=
  ∀ w : Int, (∃ i, decode w = .ok i) ↔ w ∈ legalWords

/-- 95_test_vectors.md section 2: one word of each instruction, with its modes. -/
def Obligations.DecodesOneWordOfEachInstruction : Prop :=
  decode 11001 = .ok (.add .position .immediate .immediate) ∧
  decode 1002 = .ok (.mul .position .immediate .position) ∧
  decode 103 = .ok (.inp .immediate) ∧ decode 104 = .ok (.out .immediate) ∧ decode 99 = .ok .hlt

/-- R61: a word whose two low digits are no opcode raises `UnknownOpcode` with those digits, whatever its higher digits
and whatever the cells after it. -/
def Obligations.UnknownOpcodeIsReported : Prop :=
  ∀ w : Nat, w % 100 ∉ [1, 2, 3, 4, 99] →
    decode w = .error (.unknownOpcode (w % 100 : Nat)) ∧
    ∀ s : State, s.status = .running → s.mem.read s.pc = some (w : Int) →
      step s = .next (faultedWith s .unknownOpcode (w % 100 : Nat) none)

/-- 30_encoding.md section 4, decision D7: a negative word raises `UnknownOpcode` with the whole word. -/
def Obligations.NegativeWordIsNoInstruction : Prop :=
  ∀ w : Int, w < 0 →
    decode w = .error (.unknownOpcode w) ∧
    ∀ s : State, s.status = .running → s.mem.read s.pc = some w →
      step s = .next (faultedWith s .unknownOpcode w none)

/-- R62: for a known opcode, a digit 2 to 9 at a mode position `k` in use raises `UnknownParameterMode` with the digit and
`k`, the digits below it being good. -/
def Obligations.UnknownModeDigitIsReported : Prop :=
  ∀ w nops k : Nat, (w % 100, nops) ∈ [(1, 3), (2, 3), (3, 1), (4, 1)] → 1 ≤ k → k ≤ nops →
    2 ≤ w / 10 ^ (k + 1) % 10 → (∀ j, 1 ≤ j → j < k → w / 10 ^ (j + 1) % 10 ≤ 1) →
    decode w = .error (.unknownMode (w / 10 ^ (k + 1) % 10) k) ∧
    ∀ s : State, s.status = .running → s.mem.read s.pc = some (w : Int) →
      step s = .next (faultedWith s .unknownParameterMode (w / 10 ^ (k + 1) % 10 : Nat) (some k))

/-- 30_encoding.md section 4, decision D6: a nonzero digit above the last mode digit in use is reserved and raises
`UnknownParameterMode` with the digit and its position, the digits below it being good. -/
def Obligations.ReservedDigitIsReported : Prop :=
  ∀ w nops k : Nat, (w % 100, nops) ∈ [(1, 3), (2, 3), (3, 1), (4, 1), (99, 0)] → nops < k →
    w / 10 ^ (k + 1) % 10 ≠ 0 → (∀ j, 1 ≤ j → j ≤ nops → w / 10 ^ (j + 1) % 10 ≤ 1) →
    (∀ j, nops < j → j < k → w / 10 ^ (j + 1) % 10 = 0) →
    decode w = .error (.unknownMode (w / 10 ^ (k + 1) % 10) k) ∧
    ∀ s : State, s.status = .running → s.mem.read s.pc = some (w : Int) →
      step s = .next (faultedWith s .unknownParameterMode (w / 10 ^ (k + 1) % 10 : Nat) (some k))

/-! ### The five instructions -/

/-- R70: ADD's words; it completes with the sum in the destination cell and `PC + 4`, all else unchanged; it faults at the
points R70 shows, in that order, with nothing written; and a word of opcode 01 that is no ADD faults when it is decoded,
whatever its operands. The operands and the address are those read before the write, so the statement holds where the
destination is a source, a slot or the word of the instruction. -/
def Obligations.AddStoresTheSum : Prop :=
  ∀ (m1 m2 m3 : Mode) (s : State),
    (∀ w : Int, decode w = .ok (.add m1 m2 m3) ↔
      w = 1 + 100 * m1.toDigit + 1000 * m2.toDigit + 10000 * m3.toDigit) ∧
    (∀ a b d, OperandReads s 1 m1 a → OperandReads s 2 m2 b → DestIs s 3 d → fitsCell s.params.width (a + b) = true →
      exec (.add m1 m2 m3) s = .next { s with mem := s.mem.write d (a + b), pc := s.pc + 4 }) ∧
    (∀ x, OperandFaultsAt s 1 m1 x →
      exec (.add m1 m2 m3) s = .next (faultedWith s .addressOutOfBounds x none)) ∧
    (∀ a x, OperandReads s 1 m1 a → OperandFaultsAt s 2 m2 x →
      exec (.add m1 m2 m3) s = .next (faultedWith s .addressOutOfBounds x none)) ∧
    (∀ a b x, OperandReads s 1 m1 a → OperandReads s 2 m2 b → DestFaultsAt s 3 x →
      exec (.add m1 m2 m3) s = .next (faultedWith s .addressOutOfBounds x none)) ∧
    (∀ a b d, OperandReads s 1 m1 a → OperandReads s 2 m2 b → DestIs s 3 d → fitsCell s.params.width (a + b) = false →
      exec (.add m1 m2 m3) s = .next (faultedWith s .arithmeticOverflow (a + b) none)) ∧
    (∀ w : Nat, w % 100 = 1 → (w : Int) ∉ legalWords → s.status = .running → s.mem.read s.pc = some (w : Int) →
      ∃ d k, step s = .next (faultedWith s .unknownParameterMode d (some k)))

/-- R71: MUL, as ADD with the product. -/
def Obligations.MulStoresTheProduct : Prop :=
  ∀ (m1 m2 m3 : Mode) (s : State),
    (∀ w : Int, decode w = .ok (.mul m1 m2 m3) ↔
      w = 2 + 100 * m1.toDigit + 1000 * m2.toDigit + 10000 * m3.toDigit) ∧
    (∀ a b d, OperandReads s 1 m1 a → OperandReads s 2 m2 b → DestIs s 3 d → fitsCell s.params.width (a * b) = true →
      exec (.mul m1 m2 m3) s = .next { s with mem := s.mem.write d (a * b), pc := s.pc + 4 }) ∧
    (∀ x, OperandFaultsAt s 1 m1 x →
      exec (.mul m1 m2 m3) s = .next (faultedWith s .addressOutOfBounds x none)) ∧
    (∀ a x, OperandReads s 1 m1 a → OperandFaultsAt s 2 m2 x →
      exec (.mul m1 m2 m3) s = .next (faultedWith s .addressOutOfBounds x none)) ∧
    (∀ a b x, OperandReads s 1 m1 a → OperandReads s 2 m2 b → DestFaultsAt s 3 x →
      exec (.mul m1 m2 m3) s = .next (faultedWith s .addressOutOfBounds x none)) ∧
    (∀ a b d, OperandReads s 1 m1 a → OperandReads s 2 m2 b → DestIs s 3 d → fitsCell s.params.width (a * b) = false →
      exec (.mul m1 m2 m3) s = .next (faultedWith s .arithmeticOverflow (a * b) none)) ∧
    (∀ w : Nat, w % 100 = 2 → (w : Int) ∉ legalWords → s.status = .running → s.mem.read s.pc = some (w : Int) →
      ∃ d k, step s = .next (faultedWith s .unknownParameterMode d (some k)))

/-- 41_io.md section 1, decisions D1, D8 and D10: IN completes with the next input value in the destination cell,
`IN_POS + 1` and `PC + 2`; it faults on its destination first, then on an exhausted channel, then on a value that does not
fit, and consumes nothing when it faults. -/
def Obligations.InStoresTheNextInput : Prop :=
  ∀ (m1 : Mode) (s : State),
    (∀ w : Int, decode w = .ok (.inp m1) ↔ w = 3 + 100 * m1.toDigit) ∧
    (∀ d v, DestIs s 1 d → inputAt s.params.input s.inPos = some v → fitsCell s.params.width v = true →
      exec (.inp m1) s = .next { s with mem := s.mem.write d v, inPos := s.inPos + 1, pc := s.pc + 2 }) ∧
    (∀ x, DestFaultsAt s 1 x → exec (.inp m1) s = .next (faultedWith s .addressOutOfBounds x none)) ∧
    (∀ d, DestIs s 1 d → inputAt s.params.input s.inPos = none →
      exec (.inp m1) s = .next (faultedWith s .inputExhausted s.inPos none)) ∧
    (∀ d v, DestIs s 1 d → inputAt s.params.input s.inPos = some v → fitsCell s.params.width v = false →
      exec (.inp m1) s = .next (faultedWith s .arithmeticOverflow v none))

/-- R81: OUT's words; it completes with its operand's value appended to the log and `PC + 2`, all else unchanged; it
faults on its operand's address alone and then emits nothing. -/
def Obligations.OutEmitsItsOperand : Prop :=
  ∀ (m1 : Mode) (s : State),
    (∀ w : Int, decode w = .ok (.out m1) ↔ w = 4 + 100 * m1.toDigit) ∧
    (∀ v, OperandReads s 1 m1 v →
      exec (.out m1) s = .next { s with outLog := s.outLog ++ [v], pc := s.pc + 2 }) ∧
    (∀ x, OperandFaultsAt s 1 m1 x → exec (.out m1) s = .next (faultedWith s .addressOutOfBounds x none))

/-- 42_control.md sections 1 and 3: HLT is the word 99 alone; it completes in every state with `STATUS = Halted` and
`PC + 1`, all else unchanged; and after it any number of steps answers the same state, which, that a request for a step is
no error included, is decision D24 (log entry 11). -/
def Obligations.HltStopsTheLoop : Prop :=
  (∀ w : Int, decode w = .ok .hlt ↔ w = 99) ∧
  ∀ s : State, exec .hlt s = .next { s with status := .halted, pc := s.pc + 1 } ∧
    ∀ n, core.run n { s with status := .halted, pc := s.pc + 1 } = .next { s with status := .halted, pc := s.pc + 1 }

/-! ### What instructions leave unchanged -/

/-- R75: ADD and MUL write one cell, the one their destination address names, and `PC`; the channels and the parameters
are untouched, `STATUS` and `FAULT` too but by faulting, and then no cell is written; and the destination's mode digit
makes no difference. -/
def Obligations.AluInstructionsWriteOneCell : Prop :=
  ∀ (m1 m2 m3 : Mode) (i : Instr) (s t : State), (i = .add m1 m2 m3 ∨ i = .mul m1 m2 m3) → exec i s = .next t →
    t.outLog = s.outLog ∧ t.inPos = s.inPos ∧ t.params = s.params ∧ t.mem.size = s.mem.size ∧
    (∀ d, destAddress s 3 = .ok d → ∀ x, x ≠ d → t.mem.read x = s.mem.read x) ∧
    ((t.status = s.status ∧ t.fault = s.fault ∧ t.pc = s.pc + 4 ∧ ∃ d, destAddress s 3 = .ok d) ∨
      (t.status = .faulted ∧ t.pc = s.pc ∧ ∀ x, t.mem.read x = s.mem.read x)) ∧
    ∀ m3', exec (.add m1 m2 m3') s = exec (.add m1 m2 m3) s ∧ exec (.mul m1 m2 m3') s = exec (.mul m1 m2 m3) s

/-- 41_io.md section 1 and 20_memory.md section 2, decision D11 for the faults: IN writes one cell, the one its
destination address names, `IN_POS` and `PC`; a fault writes `STATUS` and `FAULT` alone. -/
def Obligations.InWritesOneCell : Prop :=
  ∀ (m1 : Mode) (s t : State), exec (.inp m1) s = .next t →
    t.outLog = s.outLog ∧ t.params = s.params ∧ t.mem.size = s.mem.size ∧
    (∀ d, destAddress s 1 = .ok d → ∀ x, x ≠ d → t.mem.read x = s.mem.read x) ∧
    ((t.status = s.status ∧ t.fault = s.fault ∧ t.inPos = s.inPos + 1 ∧ t.pc = s.pc + 2 ∧ ∃ d, destAddress s 1 = .ok d) ∨
      (t.status = .faulted ∧ t.inPos = s.inPos ∧ t.pc = s.pc ∧ ∀ x, t.mem.read x = s.mem.read x))

/-- 41_io.md section 1, 42_control.md section 1 and 20_memory.md section 2, decision D11 for the faults: OUT and HLT write
no cell and consume no input; OUT changes `OUT_LOG` only by one value at its end, and HLT not at all; OUT changes `STATUS`
and `FAULT` only by faulting, and HLT leaves `FAULT`. -/
def Obligations.OutAndHltWriteNoCell : Prop :=
  ∀ (i : Instr) (s t : State), (i = .hlt ∨ ∃ m1, i = .out m1) → exec i s = .next t →
    (∀ x, t.mem.read x = s.mem.read x) ∧ t.mem.size = s.mem.size ∧ t.inPos = s.inPos ∧ t.params = s.params ∧
    (i = .hlt → t.outLog = s.outLog ∧ t.fault = s.fault) ∧
    (i ≠ .hlt → (t.status = s.status ∧ t.fault = s.fault ∧ ∃ v, t.outLog = s.outLog ++ [v]) ∨
      (t.status = .faulted ∧ t.outLog = s.outLog ∧ t.pc = s.pc))

/-! ### The step -/

/-- 42_control.md section 3: in a `Running` state whose word at `PC` decodes to an instruction, a step is that
instruction's execution in that state, with nothing around it. -/
def Obligations.StepRunsTheDecodedInstruction : Prop :=
  ∀ (s : State) (w : Int) (i : Instr), s.status = .running → s.mem.read s.pc = some w → decode w = .ok i →
    step s = exec i s

/-- 42_control.md section 3 and 60_exceptions.md section 3: a step always answers a next state. That the machine's faults
are such states and that no step ends in the host's fault or refusal is the model's choice (log entry 13, DESIGN CHOICE);
that a step asked for in a terminal state answers at all is decision D24 (log entry 11). -/
def Obligations.StepAlwaysAnswersANextState : Prop := ∀ s : State, ∃ t, step s = .next t

/-- R13 and R91: a step without a fault adds to `PC` the number of cells the opcode it decoded fixes, and nothing else
changes `PC`: a step that faults leaves it at the faulting word, and one in a terminal state leaves it too. -/
def Obligations.PcAdvancesByTheArity : Prop :=
  ∀ s t : State, step s = .next t →
    (s.status = .running → t.status ≠ .faulted →
      ∃ w : Nat, s.mem.read s.pc = some (w : Int) ∧
        ((w % 100 = 1 ∧ t.pc = s.pc + 4) ∨ (w % 100 = 2 ∧ t.pc = s.pc + 4) ∨ (w % 100 = 3 ∧ t.pc = s.pc + 2) ∨
          (w % 100 = 4 ∧ t.pc = s.pc + 2) ∨ (w % 100 = 99 ∧ t.pc = s.pc + 1))) ∧
    (s.status = .running → t.status = .faulted → t.pc = s.pc) ∧
    (s.status ≠ .running → t.pc = s.pc)

/-- 60_exceptions.md section 3, decisions D10, D11 and D14: a step that faults writes `STATUS` and `FAULT` and nothing
else, and `FAULT` is of a kind a step can raise, with the `PC` of the instruction and a slot only for a mode digit. -/
def Obligations.FaultsArePrecise : Prop :=
  ∀ s t : State, s.status = .running → step s = .next t → t.status = .faulted →
    ∃ kind value slot, t = faultedWith s kind value slot ∧ kind ≠ .parseError ∧
      (slot.isSome = true ↔ kind = .unknownParameterMode)

/-- R16: from `Running` a step goes to `Halted` exactly when the word at `PC` is the opcode 99's, to `Faulted` exactly when
it raises a fault of one of the five kinds, and stays `Running` exactly on any other instruction that completes; from a
terminal state it goes nowhere. -/
def Obligations.StatusTransitionsAreThoseListed : Prop :=
  ∀ s t : State, step s = .next t →
    (s.status = .running →
      (t.status = .halted ↔ AtInstr s .hlt) ∧
      (t.status = .faulted ↔ ∃ kind value slot, t = faultedWith s kind value slot ∧
        kind ∈ [FaultKind.unknownOpcode, .unknownParameterMode, .addressOutOfBounds, .inputExhausted,
          .arithmeticOverflow]) ∧
      (t.status = .running ↔ ∃ i, AtInstr s i ∧ i ≠ .hlt ∧ t.pc = s.pc + i.arity)) ∧
    (s.status ≠ .running → t.status = s.status)

/-- 42_control.md section 3, decision D24: in a terminal state any number of steps changes nothing. -/
def Obligations.TerminalStatesExecuteNothing : Prop :=
  ∀ s : State, s.status ≠ .running → ∀ n, core.run n s = .next s

/-- R103: a memory read faults exactly outside `0 .. N - 1`, with its address: the fetch exactly when `PC = N`, and in an instruction
the slot at `PC + k` or the address a slot holds; recorded are the address, no slot and the `PC` of the instruction. -/
def Obligations.AddressFaultsRecordTheAddress : Prop :=
  ∀ s t : State, Inv s → s.status = .running → step s = .next t →
    (∀ a : Int, (a < 0 ∨ (s.mem.size : Int) ≤ a) ↔ memRead s a = .error (badAddress a)) ∧
    (s.mem.read s.pc = none ↔ s.pc = s.mem.size) ∧
    (s.pc = s.mem.size → t = faultedWith s .addressOutOfBounds s.pc none) ∧
    ∀ r, t.fault = some r → r.kind = .addressOutOfBounds →
      (r.value < 0 ∨ (s.mem.size : Int) ≤ r.value) ∧ r.slot = none ∧ r.pc = s.pc ∧
      ((s.pc = s.mem.size ∧ r.value = s.pc) ∨
        ∃ i k, AtInstr s i ∧ 1 ≤ k ∧ k < i.arity ∧
          (r.value = (s.pc + k : Nat) ∨ s.mem.read (s.pc + k) = some r.value))

/-- 60_exceptions.md section 1, decisions D1 and D8: `ArithmeticOverflow` is raised only under a finite width, with a value
that does not fit it, and `InputExhausted` only when the input is finite and consumed. -/
def Obligations.OverflowAndExhaustionNeedTheirParameter : Prop :=
  ∀ (s t : State) (r : FaultRecord), s.status = .running → step s = .next t → t.status = .faulted → t.fault = some r →
    (r.kind = .arithmeticOverflow → s.params.width ≠ none ∧ fitsCell s.params.width r.value = false) ∧
    (r.kind = .inputExhausted → ∃ n, inputLength s.params.input = some n ∧ n ≤ s.inPos ∧ r.value = s.inPos)

/-! ### Reset and loading -/

/-- 10_state.md section 6: the elements at reset, decision D1 for the width (log entry 2), decision D8 for `IN_POS` and
the input (log entry 3). That `MEM` has no cell before a program is loaded is the model's choice (log entry 4,
DESIGN CHOICE). -/
def Obligations.ResetLeavesTheStatedValues : Prop :=
  State.reset.pc = 0 ∧ State.reset.status = .running ∧ State.reset.fault = none ∧ State.reset.inPos = 0 ∧
    State.reset.outLog = [] ∧ State.reset.params.width = none ∧
    (∀ i, inputAt State.reset.params.input i = some 1) ∧ ∀ a, State.reset.mem.read a = none

/-- R23 and R120 to R122, with 70_reset_and_hazards.md section 2: after a load execution begins at address 0 in state
`Running`, and cell `i` is element `i` of the image, with no cell beyond the last; no fault, nothing emitted, and no input
consumed, which is decision D8 (log entry 3). -/
def Obligations.LoadStartsAtAddressZero : Prop :=
  ∀ (p : Params) (text : List Char) (image : List Int), parseText text = some image →
    (∀ v ∈ image, fitsCell p.width v = true) →
    (State.loadText p text).pc = 0 ∧ (State.loadText p text).status = .running ∧
    (State.loadText p text).mem.size = image.length ∧ (∀ i, (State.loadText p text).mem.read i = image[i]?) ∧
    (State.loadText p text).fault = none ∧ (State.loadText p text).inPos = 0 ∧ (State.loadText p text).outLog = [] ∧
    (State.loadText p text).params = p

/-- 70_reset_and_hazards.md section 2, decisions D1 and D17: a malformed text, or a value that does not fit a cell, leaves
the machine `Faulted` with `ParseError` and without a cell. -/
def Obligations.FailedLoadIsAParseError : Prop :=
  ∀ (p : Params) (text : List Char),
    (parseText text = none ∨ ∃ image v, parseText text = some image ∧ v ∈ image ∧ fitsCell p.width v = false) →
    State.loadText p text =
      { mem := [], pc := 0, status := .faulted, fault := some { kind := .parseError, value := 0, slot := none, pc := 0 },
        inPos := 0, outLog := [], params := p }

/-- 70_reset_and_hazards.md section 2, decision D16: the loader accepts exactly the texts of the grammar, and gives the
image the grammar gives. -/
def Obligations.LoaderAcceptsExactlyTheGrammar : Prop :=
  ∀ (text : List Char) (image : List Int), parseText text = some image ↔ IsProgramText text image

/-- 30_encoding.md section 5 and 70_reset_and_hazards.md section 2: the program text of an image loads as that image. -/
def Obligations.ProgramTextRoundTrip : Prop :=
  ∀ image : List Int, image ≠ [] → parseText (imageText image) = some image

/-- 30_encoding.md section 5, decision D15 (log entry 15): a listing's line emits its instruction's word, with the mode
digits its operands are written with, and then their parameters in operand order; these are as many cells as the
instruction is long, and the first decodes to it. `DATA n` emits the cell `n` and is the one line that is no
instruction. -/
def Obligations.ListingLinesDecodeToTheirInstruction : Prop :=
  (∀ (l : Line) (i : Instr), l.instr = some i →
    l.cells.length = i.arity ∧ ∃ w, l.cells.head? = some w ∧ decode w = .ok i) ∧
  (∀ (a b : SourceOperand) (d : DestOperand) (digitA digitB digitD : Nat) (pa pb pd : Int),
    SourceWritten a digitA pa → SourceWritten b digitB pb → DestWritten d digitD pd →
    (Line.add a b d).cells = [((10000 * digitD + 1000 * digitB + 100 * digitA + 1 : Nat) : Int), pa, pb, pd] ∧
    (Line.mul a b d).cells = [((10000 * digitD + 1000 * digitB + 100 * digitA + 2 : Nat) : Int), pa, pb, pd] ∧
    (Line.inp d).cells = [((100 * digitD + 3 : Nat) : Int), pd] ∧
    (Line.out a).cells = [((100 * digitA + 4 : Nat) : Int), pa]) ∧
  Line.hlt.cells = [99] ∧ (∀ n, (Line.data n).cells = [n]) ∧ ∀ l : Line, l.instr = none ↔ ∃ n, l = .data n

/-- 70_reset_and_hazards.md section 3: the host reads every cell at its address, and the other elements as they are. -/
def Obligations.HostReadsEveryCell : Prop :=
  ∀ s : State, s.mem.wf →
    (∀ i, s.report.mem[i]? = s.mem.read i) ∧ s.report.mem.length = s.mem.size ∧ s.report.status = s.status ∧
      s.report.fault = s.fault ∧ s.report.pc = s.pc ∧ s.report.outLog = s.outLog

/-! ### Invariants -/

/-- The invariant holds at reset (10_state.md section 6). -/
def Obligations.ResetMeetsTheInvariant : Prop := Inv State.reset

/-- The invariant holds after every load, failed or not (70_reset_and_hazards.md section 2). -/
def Obligations.LoadMeetsTheInvariant : Prop :=
  (∀ (p : Params) (image : List Int), Inv (State.loadImage p image)) ∧
  ∀ (p : Params) (text : List Char), Inv (State.loadText p text)

/-- 10_state.md sections 2 to 5: every step keeps the form of memory, `PC <= N`, `FAULT` set exactly when `Faulted` and
with `PC` in it, every cell within the width, and `IN_POS` within the input. -/
def Obligations.StepKeepsTheInvariant : Prop := ∀ s t : State, Inv s → step s = .next t → Inv t

/-- 10_state.md section 4, 20_memory.md sections 1 and 2: a step never changes which addresses are cells nor the
parameters, and changes no cell but the destination of an ADD, MUL or IN. -/
def Obligations.StepsWriteOnlyTheDestination : Prop :=
  ∀ s t : State, step s = .next t →
    t.params = s.params ∧ t.mem.map Prod.fst = s.mem.map Prod.fst ∧
    ∀ x, t.mem.read x ≠ s.mem.read x → s.status = .running ∧
      ((∃ m1 m2 m3, (AtInstr s (.add m1 m2 m3) ∨ AtInstr s (.mul m1 m2 m3)) ∧ DestIs s 3 x) ∨
        ∃ m1, AtInstr s (.inp m1) ∧ DestIs s 1 x)

/-- 10_state.md section 5: `OUT_LOG` grows by one value at its end in a fault-free OUT, the value of its operand, and
`IN_POS` by 1 in a fault-free IN; no other step changes either. -/
def Obligations.ChannelsMoveOnlyByTheirInstruction : Prop :=
  ∀ s t : State, s.status = .running → step s = .next t →
    (∀ m1, AtInstr s (.out m1) → t.status ≠ .faulted →
      ∃ v, OperandReads s 1 m1 v ∧ t.outLog = s.outLog ++ [v]) ∧
    ((∀ m1, AtInstr s (.out m1) → t.status = .faulted) → t.outLog = s.outLog) ∧
    (∀ m1, AtInstr s (.inp m1) → t.status ≠ .faulted → t.inPos = s.inPos + 1) ∧
    ((∀ m1, AtInstr s (.inp m1) → t.status = .faulted) → t.inPos = s.inPos)

/-! ### Runs -/

/-- 42_control.md section 3: running with any fuel answers what as many steps answer, steps after the end changing nothing
by decision D24 (log entry 11); and from any state whose memory has its form, `run`, which takes at most the number of
steps the spec derives (log entry 18, DEDUCED), repeats the step exactly until the state is `Halted` or `Faulted`: every
earlier state is `Running`, and no further step changes what it answers. -/
def Obligations.RunRepeatsTheStep : Prop :=
  (∀ (n : Nat) (s : State), runFor n s = core.run n s) ∧
  ∀ s : State, s.mem.wf → ∃ (k : Nat) (t : State), k ≤ runBound s ∧ run s = .next t ∧ t.status ≠ .running ∧
    core.run k s = .next t ∧ (∀ j, j < k → ∃ u, core.run j s = .next u ∧ u.status = .running) ∧
    ∀ n, k ≤ n → core.run n s = .next t

/-- 42_control.md section 3: from any state whose memory has its form, wherever its `PC`, every run is in a terminal
state after `floor((N + 1) / 2) + 1` steps, and stays there, however many more are asked for (decision D24, log
entry 11). -/
def Obligations.EveryRunEndsWithinTheBound : Prop :=
  ∀ s : State, s.mem.wf → ∀ n, (s.mem.size + 1) / 2 + 1 ≤ n →
    ∃ t, core.run n s = .next t ∧ t.status ≠ .running

/-- 42_control.md section 3: a run from a `Running` state that meets the invariant ends well, after a cell that holds 99
and without a fault, or badly, with the diagnostic of the instruction at `PC`. The number of steps `run` takes is log
entry 18 (DEDUCED). -/
def Obligations.RunsEndWellOrWithADiagnostic : Prop :=
  ∀ s : State, Inv s → s.status = .running → ∃ t, run s = .next t ∧ (GoodEnd t ∨ BadEnd t)

/-- 40_arithmetic.md section 2, decision D1: a step of a finite-width machine that does not end in `ArithmeticOverflow` is
the step the unbounded machine makes. -/
def Obligations.FiniteWidthRefinesUnbounded : Prop :=
  ∀ s t : State, step s = .next t → (∀ r, t.fault = some r → r.kind ≠ .arithmeticOverflow) →
    step { s with params := { s.params with width := none } } =
      .next { t with params := { t.params with width := none } }

/-- 20_memory.md section 4: an instruction word stored where the next step fetches is what that step executes, with
nothing in between, whichever instruction stores it. -/
def Obligations.StoredWordIsFetchedNext : Prop :=
  ∀ (s : State) (j : Instr), s.status = .running → fitsCell s.params.width (encode j) = true →
    (∀ m1 m2 m3 a b, OperandReads s 1 m1 a → OperandReads s 2 m2 b → DestIs s 3 (s.pc + 4) → a + b = encode j →
      ∃ t, exec (.add m1 m2 m3) s = .next t ∧ step t = exec j t) ∧
    (∀ m1 m2 m3 a b, OperandReads s 1 m1 a → OperandReads s 2 m2 b → DestIs s 3 (s.pc + 4) → a * b = encode j →
      ∃ t, exec (.mul m1 m2 m3) s = .next t ∧ step t = exec j t) ∧
    ∀ m1, DestIs s 1 (s.pc + 2) → inputAt s.params.input s.inPos = some (encode j) →
      ∃ t, exec (.inp m1) s = .next t ∧ step t = exec j t

/-- 30_encoding.md section 2 and 40_arithmetic.md section 2: two memories that differ only in the destination's mode digit
of the instruction at `PC` go on alike, every other cell included, where no source operand reads that word as data. -/
def Obligations.DestinationDigitIsNotApplied : Prop :=
  ∀ (s : State) (i j : Instr), s.status = .running → (s.mem.read s.pc).isSome = true →
    ((∃ m1 m2 m3 m3', ((i = .add m1 m2 m3 ∧ j = .add m1 m2 m3') ∨ (i = .mul m1 m2 m3 ∧ j = .mul m1 m2 m3')) ∧
        s.mem.read (s.pc + 1) ≠ some (s.pc : Int) ∧ s.mem.read (s.pc + 2) ≠ some (s.pc : Int)) ∨
      ∃ m1 m1', i = .inp m1 ∧ j = .inp m1') →
    ∃ t u, step (s.writeCell s.pc (encode i)) = .next t ∧ step (s.writeCell s.pc (encode j)) = .next u ∧
      t.pc = u.pc ∧ t.status = u.status ∧ t.fault = u.fault ∧ t.inPos = u.inPos ∧ t.outLog = u.outLog ∧
      ∀ x, x ≠ s.pc → t.mem.read x = u.mem.read x

/-- 10_state.md section 5: no instruction reads `OUT_LOG`: what was emitted earlier changes nothing in a step. -/
def Obligations.OutLogHasNoInfluence : Prop :=
  ∀ (s t : State) (earlier : List Int), step s = .next t →
    step { s with outLog := earlier ++ s.outLog } = .next { t with outLog := earlier ++ t.outLog }

/-- 10_state.md section 5, decision D8: when the input is one value for ever, `IN_POS` has no influence on a step but on
itself. -/
def Obligations.ConstantInputHidesItsPosition : Prop :=
  ∀ (s t : State) (v : Int) (k : Nat), s.params.input = { given := [], tail := .constant v } → step s = .next t →
    step { s with inPos := s.inPos + k } = .next { t with inPos := t.inPos + k }

end
end

