-- ==== Sys2Proof/Laws/Decode.lean ====
section
/-!
SUPPORT. The laws of the decoder's loop over decimal digits.
-/
namespace Sys2Proof

/-- With enough fuel, digit `j` of the list is the digit of weight `10^j`, and 0 beyond the list. -/
theorem decimalDigits_getD (fuel n j : Nat) (h : n ≤ fuel) :
    (decimalDigits fuel n).getD j 0 = n / 10 ^ j % 10 := by
  induction fuel generalizing n j with
  | zero =>
    obtain rfl : n = 0 := by omega
    simp [decimalDigits]
  | succ fuel ih =>
    unfold decimalDigits
    split
    next h0 => subst h0; simp
    next h0 =>
      cases j with
      | zero => simp
      | succ j =>
        rw [List.getD_cons_succ, ih _ _ (by omega), Nat.div_div_eq_div_mul, pow_succ, Nat.mul_comm]

/-- The loop lets a number pass exactly when every digit is good at its position. -/
theorem firstBadDigit_eq_none_iff (nops k fuel n : Nat) (h : n ≤ fuel) :
    firstBadDigit nops k (decimalDigits fuel n) = none ↔ ∀ j, n / 10 ^ j % 10 ≤ maxDigit nops (k + j) := by
  induction fuel generalizing n k with
  | zero =>
    obtain rfl : n = 0 := by omega
    simp [decimalDigits, firstBadDigit]
  | succ fuel ih =>
    have shift : ∀ j, n / 10 / 10 ^ j = n / 10 ^ (j + 1) := fun j => by
      rw [Nat.div_div_eq_div_mul, pow_succ, Nat.mul_comm]
    unfold decimalDigits
    split
    next h0 => subst h0; simp [firstBadDigit]
    next h0 =>
      unfold firstBadDigit
      constructor
      · intro hd
        split at hd
        next h1 =>
          rw [ih _ _ (by omega)] at hd
          intro j
          cases j with
          | zero => simpa using h1
          | succ j => rw [← shift, show k + (j + 1) = k + 1 + j by omega]; exact hd j
        next => cases hd
      · intro hd
        rw [if_pos (by simpa using hd 0), ih _ _ (by omega)]
        intro j
        rw [shift, show k + 1 + j = k + (j + 1) by omega]
        exact hd (j + 1)

/-- The loop reports the first digit that is not good, with its position. -/
theorem firstBadDigit_eq_some (nops k fuel n j : Nat) (h : n ≤ fuel)
    (good : ∀ i, i < j → n / 10 ^ i % 10 ≤ maxDigit nops (k + i)) (bad : ¬ n / 10 ^ j % 10 ≤ maxDigit nops (k + j)) :
    firstBadDigit nops k (decimalDigits fuel n) = some (.unknownMode (n / 10 ^ j % 10) (k + j)) := by
  induction fuel generalizing n j k with
  | zero =>
    obtain rfl : n = 0 := by omega
    simp at bad
  | succ fuel ih =>
    have shift : ∀ j, n / 10 / 10 ^ j = n / 10 ^ (j + 1) := fun j => by
      rw [Nat.div_div_eq_div_mul, pow_succ, Nat.mul_comm]
    unfold decimalDigits
    split
    next h0 => subst h0; simp at bad
    next h0 =>
      unfold firstBadDigit
      cases j with
      | zero => rw [if_neg (by simpa using bad)]; simp
      | succ j =>
        rw [if_pos (by simpa using good 0 (by omega)), ih (k + 1) (n / 10) j (by omega), shift,
          show k + 1 + j = k + (j + 1) by omega]
        · intro i hi
          rw [shift, show k + 1 + i = k + (i + 1) by omega]
          exact good (i + 1) (by omega)
        · rw [shift, show k + 1 + j = k + (j + 1) by omega]
          exact bad

theorem encode_nonneg (i : Instr) : 0 ≤ encode i := by
  cases i <;> simp only [encode] <;> omega

end Sys2Proof
end

