-- ==== Sys2Proof/Laws/Memory.lean ====
section
/-!
SUPPORT. The laws of memory: a read after a write, the canonical form, and that every operation that builds or changes a
memory keeps it.
-/
namespace Sys2Proof.Machine

/-- A read of the written cell gives the value written, if there is such a cell. -/
theorem Memory.read_write_same (m : Memory) (a : Nat) (v : Int) :
    (m.write a v).read a = (m.read a).map fun _ => v := by
  induction m with
  | nil => rfl
  | cons x m ih =>
    obtain ⟨k, y⟩ := x
    by_cases h : k = a <;> simp [Memory.write, Memory.read, h, ih]

/-- A write leaves every other cell alone. -/
theorem Memory.read_write_other (m : Memory) {a b : Nat} (v : Int) (h : b ≠ a) :
    (m.write a v).read b = m.read b := by
  induction m with
  | nil => rfl
  | cons x m ih =>
    obtain ⟨k, y⟩ := x
    by_cases hk : k = a
    · subst hk
      simp [Memory.write, Memory.read, Ne.symm h]
    · simp [Memory.write, Memory.read, hk, ih]

/-- A write keeps the listed addresses. -/
@[simp] theorem Memory.write_keys (m : Memory) (a : Nat) (v : Int) :
    (m.write a v).map Prod.fst = m.map Prod.fst := by
  induction m with
  | nil => rfl
  | cons x m ih =>
    obtain ⟨k, y⟩ := x
    by_cases h : k = a <;> simp [Memory.write, h, ih]

/-- A write keeps the number of cells (10_state.md R19). -/
@[simp] theorem Memory.write_size (m : Memory) (a : Nat) (v : Int) : (m.write a v).size = m.size := by
  have h := congrArg List.length (m.write_keys a v)
  rwa [List.length_map, List.length_map] at h

/-- A write keeps which addresses are cells. -/
@[simp] theorem Memory.read_write_isSome (m : Memory) (a b : Nat) (v : Int) :
    ((m.write a v).read b).isSome = (m.read b).isSome := by
  by_cases h : b = a
  · subst h; simp [Memory.read_write_same]
  · rw [Memory.read_write_other m v h]

/-- A write puts in nothing but its own value. -/
theorem Memory.mem_write {m : Memory} {a : Nat} {v : Int} {x : Nat × Int} (h : x ∈ m.write a v) :
    x ∈ m ∨ x = (a, v) := by
  induction m with
  | nil => cases h
  | cons y m ih =>
    obtain ⟨k, z⟩ := y
    by_cases hk : k = a
    · subst hk
      simp only [Memory.write, if_true, List.mem_cons] at h ⊢
      tauto
    · simp only [Memory.write, hk, if_false, List.mem_cons] at h ⊢
      rcases h with rfl | h
      · exact .inl (.inl rfl)
      · rcases ih h with h | h
        · exact .inl (.inr h)
        · exact .inr h

/-- What a read gives is listed. -/
theorem Memory.mem_of_read {m : Memory} {a : Nat} {v : Int} (h : m.read a = some v) : (a, v) ∈ m := by
  induction m with
  | nil => cases h
  | cons y m ih =>
    obtain ⟨k, z⟩ := y
    by_cases hk : k = a
    · simp_all [Memory.read]
    · simp only [Memory.read, hk, if_false] at h
      exact List.mem_cons_of_mem _ (ih h)

/-- An address is a cell exactly when it is listed. -/
theorem Memory.read_isSome_iff (m : Memory) (a : Nat) : (m.read a).isSome = true ↔ a ∈ m.map Prod.fst := by
  induction m with
  | nil => simp [Memory.read]
  | cons y m ih =>
    obtain ⟨k, z⟩ := y
    by_cases hk : k = a
    · simp [Memory.read, hk]
    · simp only [Memory.read, hk, if_false, ih, List.map_cons, List.mem_cons]
      exact ⟨.inr, fun h => h.resolve_left (Ne.symm hk)⟩

/-- In canonical form the cells are exactly the addresses below `N` (20_memory.md R30). -/
theorem Memory.wf.read_isSome_iff {m : Memory} (h : m.wf) (a : Nat) :
    (m.read a).isSome = true ↔ a < m.size := by
  rw [Memory.read_isSome_iff, h, List.mem_range, Memory.size]

/-- In canonical form a read fails exactly at `N` and above. -/
theorem Memory.wf.read_eq_none_iff {m : Memory} (h : m.wf) (a : Nat) : m.read a = none ↔ m.size ≤ a := by
  rw [← not_lt, ← h.read_isSome_iff, Option.not_isSome_iff_eq_none]

/-- The listed addresses rise strictly. -/
theorem Memory.wf.pairwise_lt {m : Memory} (h : m.wf) : (m.map Prod.fst).Pairwise (· < ·) := by
  rw [h]; exact List.pairwise_lt_range

theorem Memory.wf_nil : Memory.wf [] := rfl

/-- A write keeps the canonical form. -/
theorem Memory.wf.write {m : Memory} (h : m.wf) (a : Nat) (v : Int) : (m.write a v).wf := by
  have hs := m.write_size a v
  rw [Memory.size, Memory.size] at hs
  rw [Memory.wf, Memory.write_keys, hs, h]

/-- Loading an image gives a memory in canonical form. -/
theorem Memory.wf_ofList (vs : List Int) : (Memory.ofList vs).wf := by
  rw [Memory.wf, Memory.ofList, List.map_map, List.length_map, List.length_zipIdx]
  exact (List.zipIdx_map_snd 0 vs).trans List.range_eq_range'.symm

@[simp] theorem Memory.size_ofList (vs : List Int) : (Memory.ofList vs).size = vs.length := by
  simp [Memory.ofList, Memory.size]

/-- Adding cells keeps the canonical form. -/
theorem Memory.wf.extendTo {m : Memory} (h : m.wf) (n : Nat) : (m.extendTo n).wf := by
  have h' : m.map Prod.fst = List.range' 0 m.length := by rw [h, List.range_eq_range']
  simp only [Memory.wf, Memory.extendTo, List.map_append, List.map_map, h', List.length_append, List.length_map,
    List.length_range', List.range_eq_range']
  rw [← List.range'_append_1, Nat.zero_add]
  congr 1
  simp [Function.comp_def]

/-- Placing an instruction keeps the canonical form. -/
theorem State.wf_placeInstr {s : State} (h : s.mem.wf) (w : Int) : (s.placeInstr w).mem.wf :=
  ((((h.extendTo _).write _ _).write _ _).write _ _).write _ _

theorem State.wf_reset : State.reset.mem.wf := Memory.wf_nil

end Sys2Proof.Machine
end

