-- ==== Sys2Proof/Laws/Loader.lean ====
section
/-!
SUPPORT. The laws of the loader's parts, each against the grammar of 70_reset_and_hazards.md R125, and of the input
sequence.
-/
namespace Sys2Proof.Machine

theorem isSpaceChar_iff (c : Char) : isSpaceChar c = true ↔ IsSpace c := by
  simp [isSpaceChar, IsSpace, or_assoc]

theorem digitValue_eq_some_iff {c : Char} {d : Nat} : digitValue c = some d ↔ IsDigit c ∧ d = c.toNat - 48 := by
  unfold digitValue IsDigit
  split
  next h => simp [h, eq_comm]
  next h => simp [h]

theorem digitsValue_eq_some_iff {n v : Nat} {ds : List Char} : digitsValue n ds = some v ↔
    (∀ c ∈ ds, IsDigit c) ∧ v = ds.foldl (fun n c => 10 * n + (c.toNat - 48)) n := by
  induction ds generalizing n with
  | nil => simp [digitsValue, eq_comm]
  | cons c cs ih =>
    unfold digitsValue
    cases h : digitValue c with
    | none =>
      have : ¬ IsDigit c := fun hd => by rw [digitValue_eq_some_iff.2 ⟨hd, rfl⟩] at h; cases h
      simp [this]
    | some d =>
      obtain ⟨hd, rfl⟩ := digitValue_eq_some_iff.1 h
      simp [ih, hd]

theorem natText_eq_some_iff {ds : List Char} {v : Nat} :
    natText ds = some v ↔ ds ≠ [] ∧ (∀ c ∈ ds, IsDigit c) ∧ v = digitsNumber ds := by
  unfold natText digitsNumber
  cases ds with
  | nil => simp
  | cons c cs => rw [if_neg (by simp), digitsValue_eq_some_iff]; simp

theorem splitCommas_ne_nil (t : List Char) : splitCommas t ≠ [] := by
  cases t with
  | nil => simp [splitCommas]
  | cons c cs =>
    unfold splitCommas
    split
    · simp
    · split <;> simp

/-- A text without a comma is one part. -/
theorem splitCommas_of_no_comma {e : List Char} (h : ∀ c ∈ e, c ≠ ',') : splitCommas e = [e] := by
  induction e with
  | nil => rfl
  | cons c cs ih =>
    rw [splitCommas, ih fun c hc => h c (List.mem_cons_of_mem _ hc)]
    simp [h c (by simp)]

/-- The part before the first comma is split off. -/
theorem splitCommas_append {e r : List Char} (h : ∀ c ∈ e, c ≠ ',') :
    splitCommas (e ++ ',' :: r) = e :: splitCommas r := by
  induction e with
  | nil =>
    rw [List.nil_append, splitCommas]
    cases hr : splitCommas r with
    | nil => exact absurd hr (splitCommas_ne_nil r)
    | cons p ps => simp
  | cons c cs ih =>
    rw [List.cons_append, splitCommas, ih fun c hc => h c (List.mem_cons_of_mem _ hc)]
    simp [h c (by simp)]

/-- Cell `i` of a loaded memory is element `i` of the image. -/
theorem Memory.read_ofList (vs : List Int) (i : Nat) : (Memory.ofList vs).read i = vs[i]? := by
  have h : ∀ (vs : List Int) (n i : Nat),
      Memory.read ((vs.zipIdx n).map fun x => (x.2, x.1)) (n + i) = vs[i]? := by
    intro vs
    induction vs with
    | nil => intros; rfl
    | cons v vs ih =>
      intro n i
      simp only [List.zipIdx_cons, List.map_cons, Memory.read]
      cases i with
      | zero => simp
      | succ i => rw [if_neg (by omega), show n + (i + 1) = n + 1 + i by omega, ih]; simp
  simpa [Memory.ofList] using h vs 0 i

/-- The channel has no next value exactly when the input is finite and used up (41_io.md R82). -/
theorem inputAt_eq_none_iff {q : InputSeq} {i : Nat} :
    inputAt q i = none ↔ ∃ n, inputLength q = some n ∧ n ≤ i := by
  unfold inputAt inputLength
  cases h : q.given[i]? with
  | some v =>
    have := (List.getElem?_eq_some_iff.1 h).1
    cases q.tail <;> simp; omega
  | none =>
    have := List.getElem?_eq_none_iff.1 h
    cases q.tail <;> simp; omega

end Sys2Proof.Machine
end

