-- ==== Sys2Proof/Laws/State.lean ====
section
/-!
SUPPORT. One lemma per field per update of the state.
-/
namespace Sys2Proof.Machine

section writeCell
variable (s : State) (a : Nat) (v : Int)
@[simp] theorem State.writeCell_mem : (s.writeCell a v).mem = s.mem.write a v := rfl
@[simp] theorem State.writeCell_pc : (s.writeCell a v).pc = s.pc := rfl
@[simp] theorem State.writeCell_status : (s.writeCell a v).status = s.status := rfl
@[simp] theorem State.writeCell_fault : (s.writeCell a v).fault = s.fault := rfl
@[simp] theorem State.writeCell_inPos : (s.writeCell a v).inPos = s.inPos := rfl
@[simp] theorem State.writeCell_outLog : (s.writeCell a v).outLog = s.outLog := rfl
@[simp] theorem State.writeCell_params : (s.writeCell a v).params = s.params := rfl
end writeCell

section advance
variable (s : State) (n : Nat)
@[simp] theorem State.advance_mem : (s.advance n).mem = s.mem := rfl
@[simp] theorem State.advance_pc : (s.advance n).pc = s.pc + n := rfl
@[simp] theorem State.advance_status : (s.advance n).status = s.status := rfl
@[simp] theorem State.advance_fault : (s.advance n).fault = s.fault := rfl
@[simp] theorem State.advance_inPos : (s.advance n).inPos = s.inPos := rfl
@[simp] theorem State.advance_outLog : (s.advance n).outLog = s.outLog := rfl
@[simp] theorem State.advance_params : (s.advance n).params = s.params := rfl
end advance

section halt
variable (s : State)
@[simp] theorem State.halt_mem : s.halt.mem = s.mem := rfl
@[simp] theorem State.halt_pc : s.halt.pc = s.pc := rfl
@[simp] theorem State.halt_status : s.halt.status = .halted := rfl
@[simp] theorem State.halt_fault : s.halt.fault = s.fault := rfl
@[simp] theorem State.halt_inPos : s.halt.inPos = s.inPos := rfl
@[simp] theorem State.halt_outLog : s.halt.outLog = s.outLog := rfl
@[simp] theorem State.halt_params : s.halt.params = s.params := rfl
end halt

section emit
variable (s : State) (v : Int)
@[simp] theorem State.emit_mem : (s.emit v).mem = s.mem := rfl
@[simp] theorem State.emit_pc : (s.emit v).pc = s.pc := rfl
@[simp] theorem State.emit_status : (s.emit v).status = s.status := rfl
@[simp] theorem State.emit_fault : (s.emit v).fault = s.fault := rfl
@[simp] theorem State.emit_inPos : (s.emit v).inPos = s.inPos := rfl
@[simp] theorem State.emit_outLog : (s.emit v).outLog = s.outLog ++ [v] := rfl
@[simp] theorem State.emit_params : (s.emit v).params = s.params := rfl
end emit

section consumeInput
variable (s : State)
@[simp] theorem State.consumeInput_mem : s.consumeInput.mem = s.mem := rfl
@[simp] theorem State.consumeInput_pc : s.consumeInput.pc = s.pc := rfl
@[simp] theorem State.consumeInput_status : s.consumeInput.status = s.status := rfl
@[simp] theorem State.consumeInput_fault : s.consumeInput.fault = s.fault := rfl
@[simp] theorem State.consumeInput_inPos : s.consumeInput.inPos = s.inPos + 1 := rfl
@[simp] theorem State.consumeInput_outLog : s.consumeInput.outLog = s.outLog := rfl
@[simp] theorem State.consumeInput_params : s.consumeInput.params = s.params := rfl
end consumeInput

section raise
variable (c : Cause) (s : State)
@[simp] theorem State.raise_mem : (s.raise c).mem = s.mem := rfl
@[simp] theorem State.raise_pc : (s.raise c).pc = s.pc := rfl
@[simp] theorem State.raise_status : (s.raise c).status = .faulted := rfl
@[simp] theorem State.raise_fault :
    (s.raise c).fault = some { kind := c.kind, value := c.value, slot := c.slot, pc := s.pc } := rfl
@[simp] theorem State.raise_inPos : (s.raise c).inPos = s.inPos := rfl
@[simp] theorem State.raise_outLog : (s.raise c).outLog = s.outLog := rfl
@[simp] theorem State.raise_params : (s.raise c).params = s.params := rfl
end raise

end Sys2Proof.Machine
end

