-- ==== Sys2Proof/Laws/Ops.lean ====
section
/-!
SUPPORT. What each shared operation can answer, said once in the terms of Safety.lean, and from that what `exec` and `step`
can do.
-/
namespace Sys2Proof.Machine

theorem cellAt_natCast (s : State) (a : Nat) : cellAt s (a : Int) = s.mem.read a := by
  simp [cellAt]

theorem memRead_eq_ok_iff {s : State} {a v : Int} : memRead s a = .ok v ↔ cellAt s a = some v := by
  unfold memRead cellAt
  by_cases h : a < 0
  · simp [h, not_le.2 h]
  · rw [if_neg h, if_pos (not_lt.1 h)]
    cases s.mem.read a.toNat <;> simp

theorem memRead_eq_error_iff {s : State} {a : Int} {c : Cause} :
    memRead s a = .error c ↔ cellAt s a = none ∧ c = badAddress a := by
  unfold memRead cellAt
  by_cases h : a < 0
  · simp [h, not_le.2 h, eq_comm]
  · rw [if_neg h, if_pos (not_lt.1 h)]
    cases s.mem.read a.toNat <;> simp [eq_comm]

theorem readSlot_eq_ok_iff {s : State} {k : Nat} {p : Int} :
    readSlot s k = .ok p ↔ s.mem.read (s.pc + k) = some p := by
  rw [readSlot, memRead_eq_ok_iff, cellAt_natCast]

theorem readSlot_eq_error_iff {s : State} {k : Nat} {c : Cause} :
    readSlot s k = .error c ↔ s.mem.read (s.pc + k) = none ∧ c = badAddress (s.pc + k : Nat) := by
  rw [readSlot, memRead_eq_error_iff, cellAt_natCast]

/-- Sequencing answers a value when both parts do. -/
theorem bind_eq_ok_iff {α β : Type} {x : Except Cause α} {f : α → Except Cause β} {b : β} :
    (x >>= f) = .ok b ↔ ∃ a, x = .ok a ∧ f a = .ok b := by
  cases x with
  | error c =>
    constructor
    · intro h
      cases h
    · rintro ⟨_, h, _⟩
      cases h
  | ok a =>
    constructor
    · exact fun h => ⟨a, rfl, h⟩
    · rintro ⟨_, h, h'⟩
      cases h
      exact h'

/-- Sequencing answers the first part's fault, or the second's after the first's value. -/
theorem bind_eq_error_iff {α β : Type} {x : Except Cause α} {f : α → Except Cause β} {c : Cause} :
    (x >>= f) = .error c ↔ x = .error c ∨ ∃ a, x = .ok a ∧ f a = .error c := by
  cases x with
  | error d =>
    constructor
    · intro h
      cases h
      exact .inl rfl
    · rintro (h | ⟨_, h, _⟩) <;> cases h
      rfl
  | ok a =>
    constructor
    · exact fun h => .inr ⟨a, rfl, h⟩
    · rintro (h | ⟨_, h, h'⟩) <;> cases h
      exact h'

theorem readOperand_eq_ok_iff {s : State} {k : Nat} {m : Mode} {v : Int} :
    readOperand s k m = .ok v ↔ OperandReads s k m v := by
  simp only [readOperand, bind_eq_ok_iff, readSlot_eq_ok_iff, OperandReads]
  cases m with
  | immediate => simp [eq_comm]
  | position => simp [memRead_eq_ok_iff]

theorem readOperand_eq_error_iff {s : State} {k : Nat} {m : Mode} {c : Cause} :
    readOperand s k m = .error c ↔ ∃ a, OperandFaultsAt s k m a ∧ c = badAddress a := by
  simp only [readOperand, bind_eq_error_iff, readSlot_eq_ok_iff, readSlot_eq_error_iff, OperandFaultsAt]
  constructor
  · rintro (⟨h, rfl⟩ | ⟨p, hp, h⟩)
    · exact ⟨_, .inl ⟨h, rfl⟩, rfl⟩
    · cases m with
      | immediate => cases h
      | position =>
        obtain ⟨hc, rfl⟩ := memRead_eq_error_iff.1 h
        exact ⟨p, .inr ⟨rfl, hp, hc⟩, rfl⟩
  · rintro ⟨a, ⟨h, rfl⟩ | ⟨rfl, hp, h⟩, rfl⟩
    · exact .inl ⟨h, rfl⟩
    · exact .inr ⟨a, hp, memRead_eq_error_iff.2 ⟨h, rfl⟩⟩

theorem destAddress_eq_ok_iff {s : State} {k d : Nat} : destAddress s k = .ok d ↔ DestIs s k d := by
  simp only [destAddress, bind_eq_ok_iff, readSlot_eq_ok_iff, memRead_eq_ok_iff, DestIs]
  constructor
  · rintro ⟨p, hp, v, hv, h⟩
    cases h
    by_cases h0 : 0 ≤ p
    · rw [cellAt, if_pos h0] at hv
      exact ⟨by rw [hp, Int.toNat_of_nonneg h0], by rw [hv]; rfl⟩
    · rw [cellAt, if_neg h0] at hv
      cases hv
  · rintro ⟨hp, hd⟩
    obtain ⟨v, hv⟩ := Option.isSome_iff_exists.1 hd
    exact ⟨d, hp, v, by rw [cellAt_natCast, hv], rfl⟩

theorem destAddress_eq_error_iff {s : State} {k : Nat} {c : Cause} :
    destAddress s k = .error c ↔ ∃ a, DestFaultsAt s k a ∧ c = badAddress a := by
  simp only [destAddress, bind_eq_error_iff, readSlot_eq_ok_iff, readSlot_eq_error_iff, memRead_eq_error_iff,
    DestFaultsAt, OperandFaultsAt]
  constructor
  · rintro (⟨h, rfl⟩ | ⟨p, hp, ⟨h, rfl⟩ | ⟨_, _, h⟩⟩)
    · exact ⟨_, .inl ⟨h, rfl⟩, rfl⟩
    · exact ⟨p, .inr ⟨trivial, hp, h⟩, rfl⟩
    · cases h
  · rintro ⟨a, ⟨h, rfl⟩ | ⟨-, hp, h⟩, rfl⟩
    · exact .inl ⟨h, rfl⟩
    · exact .inr ⟨a, hp, .inl ⟨h, rfl⟩⟩

theorem checkFits_eq_ok_iff {s : State} {v r : Int} :
    checkFits s v = .ok r ↔ fitsCell s.params.width v = true ∧ r = v := by
  unfold checkFits
  cases fitsCell s.params.width v <;> simp [eq_comm]

theorem checkFits_eq_error_iff {s : State} {v : Int} {c : Cause} :
    checkFits s v = .error c ↔
      fitsCell s.params.width v = false ∧ c = { kind := .arithmeticOverflow, value := v, slot := none } := by
  unfold checkFits
  cases fitsCell s.params.width v <;> simp [eq_comm]

theorem nextInput_eq_ok_iff {s : State} {v : Int} :
    nextInput s = .ok v ↔ inputAt s.params.input s.inPos = some v := by
  unfold nextInput
  cases inputAt s.params.input s.inPos <;> simp

theorem nextInput_eq_error_iff {s : State} {c : Cause} :
    nextInput s = .error c ↔ inputAt s.params.input s.inPos = none ∧
      c = { kind := .inputExhausted, value := s.inPos, slot := none } := by
  unfold nextInput
  cases inputAt s.params.input s.inPos <;> simp [eq_comm]

theorem settle_eq_next_iff {s t : State} {r : Except Cause State} :
    settle s r = .next t ↔ r = .ok t ∨ ∃ c, r = .error c ∧ t = s.raise c := by
  cases r <;> simp [settle, eq_comm]

/-- What ADD and MUL do when they complete. -/
theorem aluInstr_eq_ok_iff {op : Int → Int → Int} {m1 m2 : Mode} {s t : State} :
    aluInstr op m1 m2 s = .ok t ↔ ∃ a b d, OperandReads s 1 m1 a ∧ OperandReads s 2 m2 b ∧ DestIs s 3 d ∧
      fitsCell s.params.width (op a b) = true ∧ t = (s.writeCell d (op a b)).advance 4 := by
  simp only [aluInstr, bind_eq_ok_iff, readOperand_eq_ok_iff, destAddress_eq_ok_iff, checkFits_eq_ok_iff]
  constructor
  · rintro ⟨a, ha, b, hb, d, hd, r, ⟨hf, rfl⟩, h⟩
    cases h
    exact ⟨a, b, d, ha, hb, hd, hf, rfl⟩
  · rintro ⟨a, b, d, ha, hb, hd, hf, rfl⟩
    exact ⟨a, ha, b, hb, d, hd, _, ⟨hf, rfl⟩, rfl⟩

/-- When ADD and MUL fault, and how, in the order of 60_exceptions.md R107. -/
theorem aluInstr_eq_error_iff {op : Int → Int → Int} {m1 m2 : Mode} {s : State} {c : Cause} :
    aluInstr op m1 m2 s = .error c ↔
      (∃ x, OperandFaultsAt s 1 m1 x ∧ c = badAddress x) ∨
      ∃ a, OperandReads s 1 m1 a ∧
        ((∃ x, OperandFaultsAt s 2 m2 x ∧ c = badAddress x) ∨
        ∃ b, OperandReads s 2 m2 b ∧
          ((∃ x, DestFaultsAt s 3 x ∧ c = badAddress x) ∨
          ∃ d, DestIs s 3 d ∧ fitsCell s.params.width (op a b) = false ∧
            c = { kind := .arithmeticOverflow, value := op a b, slot := none })) := by
  simp only [aluInstr, bind_eq_error_iff, readOperand_eq_ok_iff, readOperand_eq_error_iff, destAddress_eq_ok_iff,
    destAddress_eq_error_iff, checkFits_eq_error_iff]
  simp

/-- What IN does when it completes. -/
theorem inputInstr_eq_ok_iff {s t : State} :
    inputInstr s = .ok t ↔ ∃ d v, DestIs s 1 d ∧ inputAt s.params.input s.inPos = some v ∧
      fitsCell s.params.width v = true ∧ t = (s.consumeInput.writeCell d v).advance 2 := by
  simp only [inputInstr, bind_eq_ok_iff, destAddress_eq_ok_iff, nextInput_eq_ok_iff, checkFits_eq_ok_iff]
  constructor
  · rintro ⟨d, hd, v, hv, r, ⟨hf, hr⟩, h⟩
    cases h
    exact ⟨d, v, hd, hv, hf, by rw [hr]⟩
  · rintro ⟨d, v, hd, hv, hf, rfl⟩
    exact ⟨d, hd, v, hv, _, ⟨hf, rfl⟩, rfl⟩

/-- When IN faults, and how, in the order of 60_exceptions.md R107. -/
theorem inputInstr_eq_error_iff {s : State} {c : Cause} :
    inputInstr s = .error c ↔
      (∃ x, DestFaultsAt s 1 x ∧ c = badAddress x) ∨
      ∃ d, DestIs s 1 d ∧
        ((inputAt s.params.input s.inPos = none ∧ c = { kind := .inputExhausted, value := s.inPos, slot := none }) ∨
        ∃ v, inputAt s.params.input s.inPos = some v ∧ fitsCell s.params.width v = false ∧
          c = { kind := .arithmeticOverflow, value := v, slot := none }) := by
  simp only [inputInstr, bind_eq_error_iff, destAddress_eq_ok_iff, destAddress_eq_error_iff, nextInput_eq_ok_iff,
    nextInput_eq_error_iff, checkFits_eq_error_iff]
  simp

/-- What OUT does when it completes. -/
theorem outputInstr_eq_ok_iff {m1 : Mode} {s t : State} :
    outputInstr m1 s = .ok t ↔ ∃ v, OperandReads s 1 m1 v ∧ t = (s.emit v).advance 2 := by
  simp only [outputInstr, bind_eq_ok_iff, readOperand_eq_ok_iff]
  constructor
  · rintro ⟨v, hv, h⟩
    cases h
    exact ⟨v, hv, rfl⟩
  · rintro ⟨v, hv, rfl⟩
    exact ⟨v, hv, rfl⟩

/-- When OUT faults, and how. -/
theorem outputInstr_eq_error_iff {m1 : Mode} {s : State} {c : Cause} :
    outputInstr m1 s = .error c ↔ ∃ x, OperandFaultsAt s 1 m1 x ∧ c = badAddress x := by
  simp only [outputInstr, bind_eq_error_iff, readOperand_eq_error_iff]
  simp

/-- The fetch answers an instruction when the word at `PC` decodes to it. -/
theorem fetchInstr_eq_ok_iff {s : State} {i : Instr} : fetchInstr s = .ok i ↔ AtInstr s i := by
  unfold fetchInstr AtInstr
  cases h : memRead s s.pc with
  | error c =>
    rw [memRead_eq_error_iff, cellAt_natCast] at h
    simp [h.1]
  | ok w =>
    rw [memRead_eq_ok_iff, cellAt_natCast] at h
    cases hd : decode w <;> simp [h, hd]

/-- When the fetch faults, and how: past the end of memory, or at a word that is no instruction. -/
theorem fetchInstr_eq_error_iff {s : State} {c : Cause} :
    fetchInstr s = .error c ↔ (s.mem.read s.pc = none ∧ c = badAddress s.pc) ∨
      ∃ w e, s.mem.read s.pc = some w ∧ decode w = .error e ∧ c = decodeCause e := by
  unfold fetchInstr
  cases h : memRead s s.pc with
  | error d =>
    rw [memRead_eq_error_iff, cellAt_natCast] at h
    simp [h.1, h.2, eq_comm]
  | ok w =>
    rw [memRead_eq_ok_iff, cellAt_natCast] at h
    cases hd : decode w <;> simp [h, hd, eq_comm]

/-- The effect of an instruction before `settle`. -/
def effect : Instr → State → Except Cause State
  | .add m1 m2 _, s => aluInstr (fun a b => a + b) m1 m2 s
  | .mul m1 m2 _, s => aluInstr (fun a b => a * b) m1 m2 s
  | .inp _, s => inputInstr s
  | .out m1, s => outputInstr m1 s
  | .hlt, s => .ok (s.halt.advance 1)

/-- Every instruction ends by settling its effect. -/
theorem exec_eq_settle (i : Instr) (s : State) : exec i s = settle s (effect i s) := by
  cases i <;> rfl

/-- Everything `exec` can do when it answers a next state: the instruction completes, or its fault is taken. -/
theorem exec_cases {i : Instr} {s t : State} (h : exec i s = .next t) :
    effect i s = .ok t ∨ ∃ c, effect i s = .error c ∧ t = s.raise c :=
  settle_eq_next_iff.1 (exec_eq_settle i s ▸ h)

/-- Everything `step` can do when it answers a next state. -/
theorem step_cases {s t : State} (h : step s = .next t) :
    (s.status ≠ .running ∧ t = s) ∨
    (s.status = .running ∧ ∃ c, fetchInstr s = .error c ∧ t = s.raise c) ∨
    (s.status = .running ∧ ∃ i, AtInstr s i ∧ exec i s = .next t) := by
  unfold step at h
  split at h
  next hs =>
    split at h
    next c hc =>
      rw [settle_eq_next_iff] at h
      rcases h with h | ⟨c', h, rfl⟩
      · cases h
      · cases h
        exact .inr (.inl ⟨hs, c, hc, rfl⟩)
    next i hi => exact .inr (.inr ⟨hs, i, fetchInstr_eq_ok_iff.1 hi, h⟩)
  next hs => cases h; exact .inl ⟨by simp [hs], rfl⟩
  next hs => cases h; exact .inl ⟨by simp [hs], rfl⟩

end Sys2Proof.Machine
end

