-- ==== Sys2Proof/Laws/PerInstr.lean ====
section
/-!
SUPPORT. The families of statements made per instruction, each about the instruction as syntax.
-/
namespace Sys2Proof.Laws

/-- The word of an instruction is in the opcode table (30_encoding.md R59), and its two low digits fix the number of
cells it occupies (R51). -/
def LegalWord.Statement (i : Instr) : Prop :=
  i.wf = true ∧ encode i ∈ legalWords ∧
    (i.arity, encode i % 100) ∈ [((4 : Nat), (1 : Int)), (4, 2), (2, 3), (2, 4), (1, 99)]

theorem LegalWord.add (m1 m2 m3 : Mode) : LegalWord.Statement (.add m1 m2 m3) := by
  cases m1 <;> cases m2 <;> cases m3 <;> exact ⟨rfl, by decide, by decide⟩

theorem LegalWord.mul (m1 m2 m3 : Mode) : LegalWord.Statement (.mul m1 m2 m3) := by
  cases m1 <;> cases m2 <;> cases m3 <;> exact ⟨rfl, by decide, by decide⟩

theorem LegalWord.inp (m1 : Mode) : LegalWord.Statement (.inp m1) := by
  cases m1 <;> exact ⟨rfl, by decide, by decide⟩

theorem LegalWord.out (m1 : Mode) : LegalWord.Statement (.out m1) := by
  cases m1 <;> exact ⟨rfl, by decide, by decide⟩

theorem LegalWord.hlt : LegalWord.Statement .hlt := ⟨rfl, by decide, by decide⟩

end Sys2Proof.Laws
end

