-- ==== Sys2Proof/Tests/Slice0.lean ====
section
/-!
SUPPORT. Tests against the vectors of 95_test_vectors.md (each names its vector), the smoke test of the checks of
WellFormed.lean, and for every statement with hypotheses a state and operands that meet them, clause by clause.
-/
namespace Sys2Proof.Tests

open Machine

/-- The machine loaded with an image, at the parameters the spec takes. -/
def prog (image : List Int) : State := State.loadImage Params.standard image

/-- The machine loaded with an image and a finite input. -/
def progWith (input image : List Int) : State :=
  State.loadImage { width := none, input := { given := input, tail := .exhausted } } image

/-- The machine loaded with an image, cells of 32 bits. -/
def prog32 (input image : List Int) : State :=
  State.loadImage { width := some 32, input := { given := input, tail := .exhausted } } image

/-- The state after one step. -/
def after (s : State) : State :=
  match step s with
  | .next t => t
  | .fault _ => s
  | .refused _ => s

/-- The values of the cells, in order. -/
def cells (s : State) : List Int := s.report.mem

/-! ### The checks refuse what is ill-formed -/

theorem test_wf_accepts : Instr.wf (.add .position .immediate .position) = true ∧ Params.wf Params.standard = true ∧
    (1002 : Int) ∈ legalWords := by decide

theorem test_wf_refuses_width_zero : Params.wf { Params.standard with width := some 0 } = false := by decide

theorem test_legalWords_refuses : (20001 : Int) ∉ legalWords ∧ (199 : Int) ∉ legalWords ∧ (-99 : Int) ∉ legalWords := by
  decide

theorem test_image_refuses : imageLoads Params.standard [] = false ∧
    imageLoads { Params.standard with width := some 32 } [2147483648, 99] = false := by decide

/-! ### Decoding: 95_test_vectors.md section 2, words written digit by digit from R52 -/

theorem test_decode_add : decode 10101 = .ok (.add .immediate .position .immediate) ∧
    decode 1 = .ok (.add .position .position .position) := by decide

theorem test_decode_mul : decode 1002 = .ok (.mul .position .immediate .position) ∧
    decode 11102 = .ok (.mul .immediate .immediate .immediate) := by decide

theorem test_decode_inp : decode 3 = .ok (.inp .position) ∧ decode 103 = .ok (.inp .immediate) := by decide

theorem test_decode_out : decode 4 = .ok (.out .position) ∧ decode 104 = .ok (.out .immediate) := by decide

theorem test_decode_hlt : decode 99 = .ok .hlt := by decide

theorem test_decode_unknownOpcode : decode 0 = .error (.unknownOpcode 0) ∧ decode 100 = .error (.unknownOpcode 0) ∧
    decode 2205 = .error (.unknownOpcode 5) ∧ decode (-99) = .error (.unknownOpcode (-99)) := by decide

theorem test_decode_unknownMode : decode 21101 = .error (.unknownMode 2 3) ∧ decode 22201 = .error (.unknownMode 2 1) ∧
    decode 901 = .error (.unknownMode 9 1) ∧ decode 203 = .error (.unknownMode 2 1) := by decide

theorem test_decode_reserved : decode 1003 = .error (.unknownMode 1 2) ∧ decode 1199 = .error (.unknownMode 1 1) ∧
    decode 110001 = .error (.unknownMode 1 4) ∧ decode 1000000001 = .error (.unknownMode 1 8) := by decide

theorem test_decodeTableWord : decodeTableWord 8 4 = some (.out .position) ∧ decodeTableWord 16 1002 =
    some (.mul .position .immediate .position) ∧ decodeTableWord 8 5 = none := by decide

/-! ### One step of each instruction -/

/-- S1: the ADD overwrites its own word and advances by its old arity. -/
theorem test_add_own_word : cells (after (prog [1, 0, 0, 0, 99])) = [2, 0, 0, 0, 99] ∧
    (after (prog [1, 0, 0, 0, 99])).pc = 4 := by decide

/-- V-DST1: destination digit 1 writes the addressed cell, not the slot. -/
theorem test_add_destination_digit :
    cells (after (prog [10001, 5, 6, 7, 99, 20, 22, 0])) = [10001, 5, 6, 7, 99, 20, 22, 42] := by decide

/-- S3: 1002 multiplies cell 4 by the immediate 3 and emits nothing. -/
theorem test_mul_mixed_modes : cells (after (prog [1002, 4, 3, 4, 33])) = [1002, 4, 3, 4, 99] ∧
    (after (prog [1002, 4, 3, 4, 33])).outLog = [] := by decide

/-- V-ALU16: the product is exact beyond 2^63. -/
theorem test_mul_exact : (after (prog [1102, 3037000500, 3037000500, 0, 99])).mem.read 0 =
    some 9223372037000250000 := by decide

/-- V-IO6: IN into its own slot. -/
theorem test_inp_own_slot : cells (after (progWith [5] [3, 1, 99])) = [3, 5, 99] ∧
    (after (progWith [5] [3, 1, 99])).inPos = 1 := by decide

/-- V-IO15: a negative destination faults and consumes nothing. -/
theorem test_inp_negative_address : (after (progWith [4] [3, -1, 99])).fault =
    some { kind := .addressOutOfBounds, value := -1, slot := none, pc := 0 } ∧
    (after (progWith [4] [3, -1, 99])).inPos = 0 := by decide

/-- V-IO3: OUT Immediate of a negative value. -/
theorem test_out_immediate : (after (prog [104, -5, 99])).outLog = [-5] ∧ (after (prog [104, -5, 99])).pc = 2 := by
  decide

/-- V-F26: OUT Position just past the end. -/
theorem test_out_past_end : (after (prog [4, 3, 99])).fault =
    some { kind := .addressOutOfBounds, value := 3, slot := none, pc := 0 } := by decide

/-- V-HLT1: HLT advances `PC` to `N`. -/
theorem test_hlt : (after (prog [99])).status = .halted ∧ (after (prog [99])).pc = 1 := by decide

/-- V-HLT5: a step after the halt changes nothing. -/
theorem test_hlt_again : after (after (prog [99])) = after (prog [99]) := by decide

/-! ### Faults and their order -/

/-- V-F12 to V-F14: the lowest missing slot is met first. -/
theorem test_missing_slots : ((after (prog [1, 0, 0])).fault.map (·.value), (after (prog [1, 0])).fault.map (·.value),
    (after (prog [1])).fault.map (·.value)) = (some 3, some 2, some 1) := by decide

/-- V-F22 to V-F24: operand 1, then operand 2, then the destination. -/
theorem test_first_bad_operand : ((after (prog [1, 9, 8, 7, 99])).fault.map (·.value),
    (after (prog [101, 9, 8, 7, 99])).fault.map (·.value),
    (after (prog [1101, 9, 8, 7, 99])).fault.map (·.value)) = (some 9, some 8, some 7) := by decide

/-- V-F6: decoding comes before the addresses. -/
theorem test_decode_before_addresses : (after (prog [201, 9, 9, 9])).fault =
    some { kind := .unknownParameterMode, value := 2, slot := some 1, pc := 0 } := by decide

/-- V-IO13 and V-IO14: the address is checked before the channel is asked. -/
theorem test_input_exhausted : (after (progWith [] [3, 0, 99])).fault =
    some { kind := .inputExhausted, value := 0, slot := none, pc := 0 } ∧
    (after (progWith [] [3, 5, 99])).fault.map (·.kind) = some .addressOutOfBounds := by decide

/-- V-W1 and V-W4: the two edges of 32 bits. -/
theorem test_width_edges : (after (prog32 [] [1101, 2147483647, 1, 0, 99])).fault =
    some { kind := .arithmeticOverflow, value := 2147483648, slot := none, pc := 0 } ∧
    (after (prog32 [] [1102, 65536, -32768, 0, 99])).mem.read 0 = some (-2147483648) := by decide

/-- V-W6: an input value that does not fit is not consumed. -/
theorem test_width_input : (after (prog32 [2147483648] [3, 0, 99])).fault.map (·.kind) = some .arithmeticOverflow ∧
    (after (prog32 [2147483648] [3, 0, 99])).inPos = 0 := by decide

/-- R15, R100: the numbers of the names. -/
theorem test_codes : (after (prog [4, 3, 99])).faultCode = 4 ∧ (prog [99]).faultCode = 0 ∧
    Status.code (after (prog [99])).status = 1 := by decide

/-! ### The loader and the listings: 95_test_vectors.md sections 8 and 10 -/

theorem test_parse_accepts : parseText [' ', ' ', '1', ',', '0', ',', '9', '9', '\n'] = some [1, 0, 99] ∧
    parseText ['-', '1', '2', ',', '3', '4'] = some [-12, 34] ∧ parseText ['0', '0', '7'] = some [7] ∧
    parseText ['-', '0'] = some [0] := by decide

theorem test_parse_refuses : [[], [' ', ' '], ['1', ',', ' ', '0'], ['1', ',', ',', '2'], ['1', ','], ['+', '5'], ['-'],
    ['1', '.', '5'], ['1', 'a'], ['1', ';', '2']].map parseText = List.replicate 10 none := by decide

/-- R128: the state of a failed load. -/
theorem test_failed_load : (State.loadText Params.standard ['1', ',']).faultCode = 1 ∧
    (State.loadText Params.standard ['1', ',']).mem = [] := by decide

/-- P3: the listing and its image. -/
theorem test_assemble : assemble [.inp (.cell 9), .add (.cell 9) (.value 5) (.cell 10), .out (.cell 10), .hlt, .data 0,
    .data 0] = [3, 9, 1001, 9, 5, 10, 4, 10, 99, 0, 0] := by decide

/-- R67: a marked destination is mode digit 1. -/
theorem test_assemble_marked : assemble [.mul (.value 4) (.value 5) (.marked 0)] = [11102, 4, 5, 0] := by decide

/-- The host's placing of a word: the next step runs it. -/
theorem test_withFetchWord : after (State.reset.withFetchWord 8 99) =
    { State.reset.withFetchWord 8 99 with status := .halted, pc := 1 } ∧
    (after (State.reset.withFetchWord 16 3)).mem.read 0 = some 1 := by decide

/-! ### Every statement's hypotheses are met -/

theorem witness_UnknownOpcodeIsReported : 1105 % 100 ∉ [1, 2, 3, 4, 99] ∧ 98 % 100 ∉ [1, 2, 3, 4, 99] ∧
    (prog [1105, 0]).status = .running ∧ (prog [1105, 0]).mem.read (prog [1105, 0]).pc = some 1105 := by decide

theorem witness_NegativeWordIsNoInstruction : (-1 : Int) < 0 ∧ (prog [-1]).status = .running ∧
    (prog [-1]).mem.read (prog [-1]).pc = some (-1) := by decide

/-- ADD at its highest mode position in use, IN at its only one. -/
theorem witness_UnknownModeDigitIsReported :
    ((20001 % 100, 3) ∈ [(1, 3), (2, 3), (3, 1), (4, 1)] ∧ 1 ≤ 3 ∧ 3 ≤ 3 ∧ 2 ≤ 20001 / 10 ^ (3 + 1) % 10 ∧
      ∀ j, 1 ≤ j → j < 3 → 20001 / 10 ^ (j + 1) % 10 ≤ 1) ∧
    ((203 % 100, 1) ∈ [(1, 3), (2, 3), (3, 1), (4, 1)] ∧ 1 ≤ 1 ∧ 1 ≤ 1 ∧ 2 ≤ 203 / 10 ^ (1 + 1) % 10 ∧
      ∀ j, 1 ≤ j → j < 1 → 203 / 10 ^ (j + 1) % 10 ≤ 1) ∧
    (prog [20001]).status = .running ∧ (prog [20001]).mem.read (prog [20001]).pc = some 20001 := by
  refine ⟨⟨by decide, by decide, by decide, by decide, ?_⟩, ⟨by decide, by decide, by decide, by decide, ?_⟩, by decide⟩
  · intro j h1 h2; interval_cases j <;> decide
  · intro j h1 h2; omega

/-- The lowest reserved position of ADD and of HLT. -/
theorem witness_ReservedDigitIsReported :
    ((100001 % 100, 3) ∈ [(1, 3), (2, 3), (3, 1), (4, 1), (99, 0)] ∧ 3 < 4 ∧ 100001 / 10 ^ (4 + 1) % 10 ≠ 0 ∧
      (∀ j, 1 ≤ j → j ≤ 3 → 100001 / 10 ^ (j + 1) % 10 ≤ 1) ∧
      ∀ j, 3 < j → j < 4 → 100001 / 10 ^ (j + 1) % 10 = 0) ∧
    ((199 % 100, 0) ∈ [(1, 3), (2, 3), (3, 1), (4, 1), (99, 0)] ∧ 0 < 1 ∧ 199 / 10 ^ (1 + 1) % 10 ≠ 0 ∧
      (∀ j, 1 ≤ j → j ≤ 0 → 199 / 10 ^ (j + 1) % 10 ≤ 1) ∧ ∀ j, 0 < j → j < 1 → 199 / 10 ^ (j + 1) % 10 = 0) ∧
    (prog [199]).status = .running ∧ (prog [199]).mem.read (prog [199]).pc = some 199 := by
  refine ⟨⟨by decide, by decide, by decide, ?_, ?_⟩, ⟨by decide, by decide, by decide, ?_, ?_⟩, by decide⟩
  · intro j h1 h2; interval_cases j <;> decide
  · intro j h1 h2; omega
  · intro j h1 h2; omega
  · intro j h1 h2; omega

/-- ADD completes: Position and Immediate sources, the destination its own word. -/
theorem witness_AddStoresTheSum_completes :
    OperandReads (prog [1001, 0, -7, 0]) 1 .position 1001 ∧ OperandReads (prog [1001, 0, -7, 0]) 2 .immediate (-7) ∧
    DestIs (prog [1001, 0, -7, 0]) 3 0 ∧ fitsCell (prog [1001, 0, -7, 0]).params.width (1001 + -7) = true :=
  ⟨⟨0, rfl, rfl⟩, ⟨-7, rfl, rfl⟩, ⟨rfl, rfl⟩, rfl⟩

/-- ADD faults: a missing slot 1, operand 1 at `N`, operand 2 below 0, the destination at `N`. -/
theorem witness_AddStoresTheSum_faults :
    OperandFaultsAt (prog [1]) 1 .position 1 ∧ OperandFaultsAt (prog [1, 5, 0, 0, 99]) 1 .position 5 ∧
    (OperandReads (prog [101, 9, -1, 0]) 1 .immediate 9 ∧ OperandFaultsAt (prog [101, 9, -1, 0]) 2 .position (-1)) ∧
    (OperandReads (prog [1101, 1, 1, 4]) 1 .immediate 1 ∧ OperandReads (prog [1101, 1, 1, 4]) 2 .immediate 1 ∧
      DestFaultsAt (prog [1101, 1, 1, 4]) 3 4) :=
  ⟨.inl ⟨rfl, rfl⟩, .inr ⟨rfl, rfl, rfl⟩, ⟨⟨9, rfl, rfl⟩, .inr ⟨rfl, rfl, rfl⟩⟩,
    ⟨1, rfl, rfl⟩, ⟨1, rfl, rfl⟩, .inr ⟨rfl, rfl, rfl⟩⟩

/-- ADD overflows by one under 32 bits; and a word of opcode 01 that is no ADD. -/
theorem witness_AddStoresTheSum_overflow :
    (OperandReads (prog32 [] [1101, 2147483647, 1, 0]) 1 .immediate 2147483647 ∧
      OperandReads (prog32 [] [1101, 2147483647, 1, 0]) 2 .immediate 1 ∧
      DestIs (prog32 [] [1101, 2147483647, 1, 0]) 3 0 ∧
      fitsCell (prog32 [] [1101, 2147483647, 1, 0]).params.width (2147483647 + 1) = false) ∧
    201 % 100 = 1 ∧ (201 : Int) ∉ legalWords ∧ (prog [201]).status = .running ∧ (prog [201]).mem.read 0 = some 201 :=
  ⟨⟨⟨_, rfl, rfl⟩, ⟨_, rfl, rfl⟩, ⟨rfl, rfl⟩, by decide⟩, by decide⟩

/-- MUL completes where the destination is a source and its own slot (S2). -/
theorem witness_MulStoresTheProduct_completes :
    OperandReads (prog [2, 3, 0, 3, 99]) 1 .position 3 ∧ OperandReads (prog [2, 3, 0, 3, 99]) 2 .position 2 ∧
    DestIs (prog [2, 3, 0, 3, 99]) 3 3 ∧ fitsCell (prog [2, 3, 0, 3, 99]).params.width (3 * 2) = true :=
  ⟨⟨3, rfl, rfl⟩, ⟨0, rfl, rfl⟩, ⟨rfl, rfl⟩, rfl⟩

/-- MUL faults at each operand, as ADD. -/
theorem witness_MulStoresTheProduct_faults :
    OperandFaultsAt (prog [2, -1, 0, 0]) 1 .position (-1) ∧
    (OperandReads (prog [102, 9]) 1 .immediate 9 ∧ OperandFaultsAt (prog [102, 9]) 2 .position 2) ∧
    (OperandReads (prog [1102, 1, 1]) 1 .immediate 1 ∧ OperandReads (prog [1102, 1, 1]) 2 .immediate 1 ∧
      DestFaultsAt (prog [1102, 1, 1]) 3 3) :=
  ⟨.inr ⟨rfl, rfl, rfl⟩, ⟨⟨9, rfl, rfl⟩, .inl ⟨rfl, rfl⟩⟩, ⟨1, rfl, rfl⟩, ⟨1, rfl, rfl⟩, .inl ⟨rfl, rfl⟩⟩

/-- V-W3: MUL overflows by one under 32 bits; and a word of opcode 02 that is no MUL. -/
theorem witness_MulStoresTheProduct_overflow :
    (OperandReads (prog32 [] [1102, 65536, 32768, 0]) 1 .immediate 65536 ∧
      OperandReads (prog32 [] [1102, 65536, 32768, 0]) 2 .immediate 32768 ∧
      DestIs (prog32 [] [1102, 65536, 32768, 0]) 3 0 ∧
      fitsCell (prog32 [] [1102, 65536, 32768, 0]).params.width (65536 * 32768) = false) ∧
    100002 % 100 = 2 ∧ (100002 : Int) ∉ legalWords ∧ (prog [100002]).status = .running ∧
      (prog [100002]).mem.read 0 = some 100002 :=
  ⟨⟨⟨_, rfl, rfl⟩, ⟨_, rfl, rfl⟩, ⟨rfl, rfl⟩, by decide⟩, by decide⟩

/-- IN: completes into the last cell, with the last value; faults past it, on an empty input, on a value too large. -/
theorem witness_InStoresTheNextInput :
    (DestIs (progWith [7] [3, 2, 0]) 1 2 ∧ inputAt (progWith [7] [3, 2, 0]).params.input 0 = some 7 ∧
      fitsCell (progWith [7] [3, 2, 0]).params.width 7 = true) ∧
    DestFaultsAt (progWith [7] [3, 3, 0]) 1 3 ∧
    (DestIs (progWith [] [3, 0, 99]) 1 0 ∧ inputAt (progWith [] [3, 0, 99]).params.input 0 = none) ∧
    (DestIs (prog32 [2147483648] [3, 0]) 1 0 ∧
      inputAt (prog32 [2147483648] [3, 0]).params.input 0 = some 2147483648 ∧
      fitsCell (prog32 [2147483648] [3, 0]).params.width 2147483648 = false) :=
  ⟨⟨⟨rfl, rfl⟩, rfl, rfl⟩, .inr ⟨rfl, rfl, rfl⟩, ⟨⟨rfl, rfl⟩, rfl⟩, ⟨rfl, rfl⟩, rfl, by decide⟩

/-- OUT: reads its own word (V-IO4), faults on a missing slot (V-F16). -/
theorem witness_OutEmitsItsOperand :
    OperandReads (prog [4, 0, 99]) 1 .position 4 ∧ OperandFaultsAt (prog [4]) 1 .position 1 :=
  ⟨⟨0, rfl, rfl⟩, .inl ⟨rfl, rfl⟩⟩

/-- ADD and MUL answer a next state, completing and faulting. -/
theorem witness_AluInstructionsWriteOneCell :
    exec (.add .position .position .position) (prog [1, 0, 0, 0]) = .next (after (prog [1, 0, 0, 0])) ∧
    exec (.mul .position .position .position) (prog [2, 9, 0, 0]) = .next (after (prog [2, 9, 0, 0])) ∧
    destAddress (prog [1, 0, 0, 0]) 3 = .ok 0 := ⟨rfl, rfl, rfl⟩

theorem witness_InWritesOneCell :
    exec (.inp .position) (prog [3, 0]) = .next (after (prog [3, 0])) ∧ destAddress (prog [3, 0]) 1 = .ok 0 ∧
    exec (.inp .position) (prog [3]) = .next (after (prog [3])) := ⟨rfl, rfl, rfl⟩

theorem witness_OutAndHltWriteNoCell :
    exec .hlt (prog [99]) = .next (after (prog [99])) ∧
    exec (.out .immediate) (prog [104, 1]) = .next (after (prog [104, 1])) ∧
    exec (.out .position) (prog [4]) = .next (after (prog [4])) := ⟨rfl, rfl, rfl⟩

theorem witness_StepRunsTheDecodedInstruction : (prog [104, 1]).status = .running ∧
    (prog [104, 1]).mem.read (prog [104, 1]).pc = some 104 ∧ decode 104 = .ok (.out .immediate) := by decide

/-- A step of each arity, a step that faults and a step in a terminal state. -/
theorem witness_PcAdvancesByTheArity :
    (step (prog [1, 0, 0, 0]) = .next (after (prog [1, 0, 0, 0])) ∧ (prog [1, 0, 0, 0]).status = .running ∧
      (after (prog [1, 0, 0, 0])).status = .running) ∧
    (step (prog [5]) = .next (after (prog [5])) ∧ (after (prog [5])).status = .faulted) ∧
    step (after (prog [5])) = .next (after (prog [5])) := ⟨⟨rfl, rfl, rfl⟩, ⟨rfl, rfl⟩, rfl⟩

theorem witness_FaultsArePrecise : (prog [1, 5, 0, 0, 99]).status = .running ∧
    step (prog [1, 5, 0, 0, 99]) = .next (after (prog [1, 5, 0, 0, 99])) ∧
    (after (prog [1, 5, 0, 0, 99])).status = .faulted := ⟨rfl, rfl, rfl⟩

/-- From `Running` to each of the three states, and none from a terminal one. -/
theorem witness_StatusTransitionsAreThoseListed :
    (step (prog [99]) = .next (after (prog [99])) ∧ (after (prog [99])).status = .halted) ∧
    (step (prog [0]) = .next (after (prog [0])) ∧ (after (prog [0])).status = .faulted) ∧
    (step (prog [104, 1]) = .next (after (prog [104, 1])) ∧ (after (prog [104, 1])).status = .running) ∧
    (step (after (prog [99])) = .next (after (prog [99])) ∧ (after (prog [99])).status ≠ .running) :=
  ⟨⟨rfl, rfl⟩, ⟨rfl, rfl⟩, ⟨rfl, rfl⟩, rfl, by decide⟩

theorem witness_TerminalStatesExecuteNothing : (after (prog [99])).status ≠ .running ∧
    (after (prog [0])).status ≠ .running := by decide

/-- A loaded machine about to execute an IN. -/
theorem witness_StepKeepsTheInvariant : Inv (prog [3, 0, 99]) ∧
    step (prog [3, 0, 99]) = .next (after (prog [3, 0, 99])) :=
  ⟨⟨by decide, by decide, by decide, by simp [prog, State.loadImage, imageLoads, State.loaded, Params.standard, fitsCell],
    by simp [prog, State.loadImage, imageLoads, State.loaded, Params.standard, fitsCell], by decide,
    by intro n h; cases h⟩, rfl⟩

/-- A fetch at `N`, and a bad operand address below it. -/
theorem witness_AddressFaultsRecordTheAddress :
    (Inv State.reset ∧ State.reset.status = .running ∧ step State.reset = .next (after State.reset) ∧
      State.reset.pc = State.reset.mem.size) ∧
    (Inv (prog [4, 7]) ∧ (prog [4, 7]).status = .running ∧ step (prog [4, 7]) = .next (after (prog [4, 7])) ∧
      (after (prog [4, 7])).fault = some { kind := .addressOutOfBounds, value := 7, slot := none, pc := 0 }) := by
  refine ⟨⟨⟨rfl, by decide, by decide, ?_, ?_, by decide, ?_⟩, rfl, rfl, rfl⟩,
    ⟨⟨by decide, by decide, by decide, ?_, ?_, by decide, ?_⟩, rfl, rfl, rfl⟩⟩
  all_goals intro r h; cases h

/-- A finite width that overflows, and an input that is used up. -/
theorem witness_OverflowAndExhaustionNeedTheirParameter :
    (step (prog32 [] [1101, 2147483647, 1, 0]) = .next (after (prog32 [] [1101, 2147483647, 1, 0])) ∧
      (after (prog32 [] [1101, 2147483647, 1, 0])).fault =
        some { kind := .arithmeticOverflow, value := 2147483648, slot := none, pc := 0 }) ∧
    (step (progWith [] [3, 0]) = .next (after (progWith [] [3, 0])) ∧
      (after (progWith [] [3, 0])).fault = some { kind := .inputExhausted, value := 0, slot := none, pc := 0 }) ∧
    (after (progWith [] [3, 0])).status = .faulted := ⟨⟨rfl, by decide⟩, ⟨rfl, by decide⟩, rfl⟩

theorem witness_LoadStartsAtAddressZero : parseText ['9', '9'] = some [99] ∧
    (∀ v ∈ ([99] : List Int), fitsCell Params.standard.width v = true) := by decide

/-- A text outside the grammar, and one whose value is too large for the cell. -/
theorem witness_FailedLoadIsAParseError : parseText ['+', '5'] = none ∧
    (parseText ['2', '1', '4', '7', '4', '8', '3', '6', '4', '8'] = some [2147483648] ∧
      fitsCell (some 32) 2147483648 = false) := by decide

theorem witness_ProgramTextRoundTrip : ([-7, 0, 10] : List Int) ≠ [] ∧
    imageText [-7, 0, 10] = ['-', '7', ',', '0', ',', '1', '0'] := by decide

/-- A line that is an instruction, and each way an operand is written; the cells of the first are those R67 gives for
`ADD [0], #1, [4]!`. -/
theorem witness_ListingLinesDecodeToTheirInstruction :
    (Line.out (.value (-5))).instr = some (.out .immediate) ∧ (Line.hlt).instr = some .hlt ∧
    (SourceWritten (.cell 0) 0 0 ∧ SourceWritten (.value 1) 1 1 ∧ DestWritten (.cell 4) 0 4 ∧ DestWritten (.marked 4) 1 4) ∧
    (Line.add (.cell 0) (.value 1) (.marked 4)).cells = [11001, 0, 1, 4] :=
  ⟨rfl, rfl, ⟨.inl ⟨rfl, rfl⟩, .inr ⟨rfl, rfl⟩, .inl ⟨rfl, rfl⟩, .inr ⟨rfl, rfl⟩⟩, by decide⟩

theorem witness_HostReadsEveryCell : (prog [3, 0, 99]).mem.wf := by decide

theorem witness_StepsWriteOnlyTheDestination :
    step (prog [1101, 2, 3, 0]) = .next (after (prog [1101, 2, 3, 0])) ∧
    (after (prog [1101, 2, 3, 0])).mem.read 0 ≠ (prog [1101, 2, 3, 0]).mem.read 0 := ⟨rfl, by decide⟩

/-- OUT and IN completing, and one step that is neither. -/
theorem witness_ChannelsMoveOnlyByTheirInstruction :
    (AtInstr (prog [104, 1]) (.out .immediate) ∧ step (prog [104, 1]) = .next (after (prog [104, 1])) ∧
      (after (prog [104, 1])).status ≠ .faulted) ∧
    (AtInstr (prog [3, 0]) (.inp .position) ∧ step (prog [3, 0]) = .next (after (prog [3, 0])) ∧
      (after (prog [3, 0])).status ≠ .faulted) ∧
    ((prog [99]).status = .running ∧ step (prog [99]) = .next (after (prog [99])) ∧
      ∀ m1, ¬ AtInstr (prog [99]) (.out m1) ∧ ¬ AtInstr (prog [99]) (.inp m1)) := by
  refine ⟨⟨⟨104, rfl, by decide⟩, rfl, by decide⟩, ⟨⟨3, rfl, by decide⟩, rfl, by decide⟩, rfl, rfl, fun m1 => ?_⟩
  constructor <;> rintro ⟨w, hw, hd⟩ <;> cases hw <;> cases hd

/-- Two steps are the run, within its bound, and the first leaves it `Running`. -/
theorem witness_RunRepeatsTheStep : (prog [104, 1, 99]).mem.wf ∧ 2 ≤ runBound (prog [104, 1, 99]) ∧
    (∃ u, core.run 1 (prog [104, 1, 99]) = .next u ∧ u.status = .running) ∧
    ∃ t, run (prog [104, 1, 99]) = .next t ∧ core.run 2 (prog [104, 1, 99]) = .next t ∧ t.status = .halted :=
  ⟨by decide, by decide, ⟨_, rfl, rfl⟩, ⟨_, rfl, rfl, rfl⟩⟩

theorem witness_EveryRunEndsWithinTheBound : (prog [1, 0, 0, 0, 99]).mem.wf ∧
    ((prog [1, 0, 0, 0, 99]).mem.size + 1) / 2 + 1 ≤ 4 := by decide

theorem witness_RunsEndWellOrWithADiagnostic : Inv (prog [99]) ∧ (prog [99]).status = .running := by
  refine ⟨⟨by decide, by decide, by decide, ?_, ?_, by decide, ?_⟩, rfl⟩
  all_goals intro r h; cases h

theorem witness_FiniteWidthRefinesUnbounded :
    step (prog32 [] [1101, 2147483646, 1, 0]) = .next (after (prog32 [] [1101, 2147483646, 1, 0])) ∧
    ∀ r, (after (prog32 [] [1101, 2147483646, 1, 0])).fault = some r → r.kind ≠ .arithmeticOverflow := by
  refine ⟨rfl, fun r h => ?_⟩
  rw [show (after (prog32 [] [1101, 2147483646, 1, 0])).fault = none by decide] at h
  cases h

/-- V-ALU8 stores a HLT by an ADD, a MUL does the same, V-IO8 by an IN. -/
theorem witness_StoredWordIsFetchedNext :
    (OperandReads (prog [1101, 50, 49, 4, 0]) 1 .immediate 50 ∧ OperandReads (prog [1101, 50, 49, 4, 0]) 2 .immediate 49 ∧
      DestIs (prog [1101, 50, 49, 4, 0]) 3 (0 + 4) ∧ (50 + 49 : Int) = encode .hlt ∧
      fitsCell (prog [1101, 50, 49, 4, 0]).params.width (encode .hlt) = true) ∧
    (OperandReads (prog [1102, 9, 11, 4, 0]) 1 .immediate 9 ∧ OperandReads (prog [1102, 9, 11, 4, 0]) 2 .immediate 11 ∧
      DestIs (prog [1102, 9, 11, 4, 0]) 3 (0 + 4) ∧ (9 * 11 : Int) = encode .hlt) ∧
    (DestIs (progWith [99] [3, 2, 0]) 1 (0 + 2) ∧
      inputAt (progWith [99] [3, 2, 0]).params.input 0 = some (encode .hlt)) :=
  ⟨⟨⟨_, rfl, rfl⟩, ⟨_, rfl, rfl⟩, ⟨rfl, rfl⟩, rfl, rfl⟩, ⟨⟨_, rfl, rfl⟩, ⟨_, rfl, rfl⟩, ⟨rfl, rfl⟩, rfl⟩,
    ⟨rfl, rfl⟩, rfl⟩

theorem witness_DestinationDigitIsNotApplied : (prog [1, 5, 6, 7, 99, 20, 22, 0]).status = .running ∧
    ((prog [1, 5, 6, 7, 99, 20, 22, 0]).mem.read 0).isSome = true ∧
    (prog [1, 5, 6, 7, 99, 20, 22, 0]).mem.read (0 + 1) ≠ some 0 ∧
    (prog [1, 5, 6, 7, 99, 20, 22, 0]).mem.read (0 + 2) ≠ some 0 := by decide

theorem witness_OutLogHasNoInfluence : step (prog [104, 1]) = .next (after (prog [104, 1])) := rfl

theorem witness_ConstantInputHidesItsPosition :
    (prog [3, 0]).params.input = { given := [], tail := .constant 1 } ∧ step (prog [3, 0]) = .next (after (prog [3, 0])) :=
  ⟨rfl, rfl⟩

end Sys2Proof.Tests
end

section
/-!
SUPPORT. What a step from `Running` can do, said once: it takes a fault of one of the kinds a step raises, or the
instruction at `PC` completes, which moves `PC` by the arity and halts exactly for HLT (10_state.md R13 and R16).
-/
namespace Sys2Proof.Machine

/-- A cause a step can raise (10_state.md R17, 60_exceptions.md R100): `ParseError` is the loader's alone, and a slot is
recorded exactly for a bad mode digit. -/
def Raisable (c : Cause) : Prop :=
  c.kind ≠ .parseError ∧ (c.slot.isSome = true ↔ c.kind = .unknownParameterMode)

theorem raisable_badAddress (a : Int) : Raisable (badAddress a) := by
  simp [Raisable, badAddress]

theorem raisable_overflow (v : Int) : Raisable { kind := .arithmeticOverflow, value := v, slot := none } := by
  simp [Raisable]

theorem raisable_inputExhausted (v : Int) : Raisable { kind := .inputExhausted, value := v, slot := none } := by
  simp [Raisable]

theorem raisable_decodeCause (e : DecodeError) : Raisable (decodeCause e) := by
  cases e <;> simp [Raisable, decodeCause]

/-- The kinds of the raisable causes are the five run-time kinds (60_exceptions.md R101 to R105). -/
theorem Raisable.kind_mem {c : Cause} (h : Raisable c) :
    c.kind ∈ [FaultKind.unknownOpcode, .unknownParameterMode, .addressOutOfBounds, .inputExhausted,
      .arithmeticOverflow] := by
  obtain ⟨hk, -⟩ := h
  cases hc : c.kind <;> simp_all

theorem fetchInstr_error_raisable {s : State} {c : Cause} (h : fetchInstr s = .error c) : Raisable c := by
  obtain ⟨-, rfl⟩ | ⟨-, e, -, -, rfl⟩ := fetchInstr_eq_error_iff.1 h
  · exact raisable_badAddress _
  · exact raisable_decodeCause e

theorem aluInstr_error_raisable {op : Int → Int → Int} {m1 m2 : Mode} {s : State} {c : Cause}
    (h : aluInstr op m1 m2 s = .error c) : Raisable c := by
  obtain ⟨x, -, rfl⟩ | ⟨a, -, ⟨x, -, rfl⟩ | ⟨b, -, ⟨x, -, rfl⟩ | ⟨d, -, -, rfl⟩⟩⟩ := aluInstr_eq_error_iff.1 h
  · exact raisable_badAddress x
  · exact raisable_badAddress x
  · exact raisable_badAddress x
  · exact raisable_overflow _

theorem effect_error_raisable {i : Instr} {s : State} {c : Cause} (h : effect i s = .error c) : Raisable c := by
  cases i with
  | add m1 m2 m3 => exact aluInstr_error_raisable h
  | mul m1 m2 m3 => exact aluInstr_error_raisable h
  | inp m1 =>
    obtain ⟨x, -, rfl⟩ | ⟨d, -, ⟨-, rfl⟩ | ⟨v, -, -, rfl⟩⟩ := inputInstr_eq_error_iff.1 h
    · exact raisable_badAddress x
    · exact raisable_inputExhausted _
    · exact raisable_overflow v
  | out m1 =>
    obtain ⟨x, -, rfl⟩ := outputInstr_eq_error_iff.1 h
    exact raisable_badAddress x
  | hlt => cases h

/-- ADD and MUL, completing, add 4 to `PC` and leave `STATUS`. -/
theorem aluInstr_ok_pc_status {op : Int → Int → Int} {m1 m2 : Mode} {s t : State}
    (h : aluInstr op m1 m2 s = .ok t) : t.pc = s.pc + 4 ∧ t.status = s.status := by
  obtain ⟨a, b, d, -, -, -, -, rfl⟩ := aluInstr_eq_ok_iff.1 h
  exact ⟨rfl, rfl⟩

/-- An instruction that completes adds its arity to `PC` (10_state.md R13), and HLT alone writes `STATUS` (R16). -/
theorem effect_ok_pc_status {i : Instr} {s t : State} (h : effect i s = .ok t) :
    t.pc = s.pc + i.arity ∧ t.status = if i = .hlt then .halted else s.status := by
  cases i with
  | add m1 m2 m3 => exact aluInstr_ok_pc_status h
  | mul m1 m2 m3 => exact aluInstr_ok_pc_status h
  | inp m1 =>
    obtain ⟨d, v, -, -, -, rfl⟩ := inputInstr_eq_ok_iff.1 h
    exact ⟨rfl, rfl⟩
  | out m1 =>
    obtain ⟨v, -, rfl⟩ := outputInstr_eq_ok_iff.1 h
    exact ⟨rfl, rfl⟩
  | hlt =>
    cases h
    exact ⟨rfl, rfl⟩

/-- A step from `Running` takes a fault, or the instruction at `PC` completes. -/
theorem step_running_cases {s t : State} (hs : s.status = .running) (h : step s = .next t) :
    (∃ c, Raisable c ∧ t = s.raise c) ∨ ∃ i, AtInstr s i ∧ effect i s = .ok t := by
  obtain ⟨hn, -⟩ | ⟨-, c, hc, rfl⟩ | ⟨-, i, hi, he⟩ := step_cases h
  · exact absurd hs hn
  · exact .inl ⟨c, fetchInstr_error_raisable hc, rfl⟩
  · obtain hok | ⟨c, hc, rfl⟩ := exec_cases he
    · exact .inr ⟨i, hi, hok⟩
    · exact .inl ⟨c, effect_error_raisable hc, rfl⟩

/-- A step in a terminal state changes nothing (42_control.md R96, decision D24). -/
theorem step_terminal_eq {s t : State} (hs : s.status ≠ .running) (h : step s = .next t) : t = s := by
  obtain ⟨-, ht⟩ | ⟨hr, -⟩ | ⟨hr, -⟩ := step_cases h
  · exact ht
  · exact absurd hr hs
  · exact absurd hr hs

/-- A step from `Running` is the execution of the instruction at `PC` (42_control.md R94). -/
theorem step_eq_exec {s : State} {i : Instr} (hs : s.status = .running) (hi : AtInstr s i) : step s = exec i s := by
  simp only [step, hs, fetchInstr_eq_ok_iff.2 hi]

/-- There is one instruction at `PC`. -/
theorem atInstr_unique {s : State} {i j : Instr} (hi : AtInstr s i) (hj : AtInstr s j) : i = j :=
  Except.ok.inj ((fetchInstr_eq_ok_iff.2 hi).symm.trans (fetchInstr_eq_ok_iff.2 hj))

theorem arity_pos (i : Instr) : 0 < i.arity := by
  cases i <;> simp [Instr.arity]

/-- The instruction at `PC` that completes from `Running` ends in `Halted` if it is HLT, else in `Running`. -/
theorem completed_status {s t : State} {i : Instr} (hs : s.status = .running) (hok : effect i s = .ok t) :
    t.status = if i = .hlt then .halted else .running :=
  hs ▸ (effect_ok_pc_status hok).2

/-- A step from `Running` halts exactly on HLT. -/
theorem step_halted_iff {s t : State} (hs : s.status = .running) (h : step s = .next t) :
    t.status = .halted ↔ AtInstr s .hlt := by
  constructor
  · intro ht
    obtain ⟨c, -, rfl⟩ | ⟨i, hi, hok⟩ := step_running_cases hs h
    · cases ht
    · have hst := completed_status hs hok
      rw [ht] at hst
      split at hst
      next hhlt => exact hhlt ▸ hi
      next => cases hst
  · intro hi
    rw [step_eq_exec hs hi] at h
    cases h
    rfl

/-- A step from `Running` faults exactly when it takes a fault of a run-time kind. -/
theorem step_faulted_iff {s t : State} (hs : s.status = .running) (h : step s = .next t) :
    t.status = .faulted ↔ ∃ c, Raisable c ∧ t = s.raise c := by
  constructor
  · intro ht
    obtain hfault | ⟨i, -, hok⟩ := step_running_cases hs h
    · exact hfault
    · have hst := completed_status hs hok
      rw [ht] at hst
      split at hst <;> cases hst
  · rintro ⟨c, -, rfl⟩
    rfl

/-- A step from `Running` stays there exactly when another instruction than HLT moves `PC` by its arity. -/
theorem step_running_iff {s t : State} (hs : s.status = .running) (h : step s = .next t) :
    t.status = .running ↔ ∃ i, AtInstr s i ∧ i ≠ .hlt ∧ t.pc = s.pc + i.arity := by
  obtain ⟨c, -, rfl⟩ | ⟨i, hi, hok⟩ := step_running_cases hs h
  · constructor
    · intro ht
      cases ht
    · rintro ⟨i, -, -, hpc⟩
      have hpos := arity_pos i
      rw [State.raise_pc] at hpc
      omega
  · have hst := completed_status hs hok
    constructor
    · intro ht
      refine ⟨i, hi, ?_, (effect_ok_pc_status hok).1⟩
      rintro rfl
      rw [ht] at hst
      cases hst
    · rintro ⟨j, hj, hne, -⟩
      rw [hst, atInstr_unique hi hj, if_neg hne]

end Sys2Proof.Machine
end

section
/-!
SUPPORT. The opcode a decoded word holds in its two low digits, with the arity of the instruction (30_encoding.md R51).
-/
namespace Sys2Proof

/-- A row of the opcode table makes instructions of one arity, which the opcode fixes. -/
theorem opcodeRow_arity {op nops : Nat} {instr : Mode → Mode → Mode → Instr} (h : opcodeRow op = some (nops, instr))
    (m1 m2 m3 : Mode) : (op, (instr m1 m2 m3).arity) ∈ [(1, 4), (2, 4), (3, 2), (4, 2), (99, 1)] := by
  unfold opcodeRow at h
  split at h <;> cases h <;> simp [Instr.arity]

/-- A word that decodes is not negative, and its opcode fixes the arity of the instruction. -/
theorem decode_ok_opcode_arity {w : Int} {i : Instr} (h : decode w = .ok i) :
    ∃ n : Nat, w = n ∧ (n % 100, i.arity) ∈ [(1, 4), (2, 4), (3, 2), (4, 2), (99, 1)] := by
  unfold decode at h
  split at h
  next => cases h
  next hw =>
    refine ⟨w.toNat, (Int.toNat_of_nonneg (not_lt.1 hw)).symm, ?_⟩
    unfold decodeNat at h
    split at h
    next => cases h
    next hrow =>
      split at h
      next => cases h
      next =>
        cases h
        exact opcodeRow_arity hrow _ _ _

end Sys2Proof
end

section
/-!
SUPPORT. What a load leaves that succeeds (70_reset_and_hazards.md R120 to R126).
-/
namespace Sys2Proof.Machine

/-- There is one value for each element (R124). -/
theorem length_of_elementsText {ps : List (List Char)} {vs : List Int} (h : elementsText ps = some vs) :
    vs.length = ps.length := by
  induction ps generalizing vs with
  | nil => cases h; rfl
  | cons p ps ih =>
    unfold elementsText at h
    split at h
    next v ws hv hws =>
      cases h
      simp [ih hws]
    next => cases h

/-- A text that parses gives an image with a cell: `N >= 1` (R125). -/
theorem ne_nil_of_parseText {text : List Char} {image : List Int} (h : parseText text = some image) : image ≠ [] := by
  have hlen := length_of_elementsText h
  intro hnil
  rw [hnil] at hlen
  exact splitCommas_ne_nil _ (List.eq_nil_of_length_eq_zero hlen.symm)

/-- A well-formed text whose values fit the width loads as its image. -/
theorem loadText_eq_loaded {p : Params} {text : List Char} {image : List Int} (hparse : parseText text = some image)
    (hfit : ∀ v ∈ image, fitsCell p.width v = true) : State.loadText p text = State.loaded p image := by
  have hloads : imageLoads p image = true := by
    simpa [imageLoads, ne_nil_of_parseText hparse] using hfit
  simp only [State.loadText, hparse, State.loadImage, hloads, if_true]

end Sys2Proof.Machine
end

section
/-!
SUPPORT. The proofs of the statements of 10_state.md.
-/
namespace Sys2Proof.Proofs

open Machine

/-- Settles O18: a step that does not fault completes the instruction decoded, and its opcode fixes its arity. -/
theorem pcAdvancesByTheArity : Obligations.PcAdvancesByTheArity := by
  intro s t h
  refine ⟨fun hs hnf => ?_, fun hs hf => ?_, fun hs => by rw [step_terminal_eq hs h]⟩
  · obtain ⟨c, -, rfl⟩ | ⟨i, ⟨w, hw, hd⟩, hok⟩ := step_running_cases hs h
    · exact absurd rfl hnf
    · obtain ⟨hpc, -⟩ := effect_ok_pc_status hok
      obtain ⟨n, rfl, hrow⟩ := decode_ok_opcode_arity hd
      refine ⟨n, hw, ?_⟩
      simp only [List.mem_cons, List.not_mem_nil, Prod.mk.injEq, or_false] at hrow
      omega
  · obtain ⟨c, -, rfl⟩ := (step_faulted_iff hs h).1 hf
    rfl

/-- Settles O20: `STATUS` after a step tells the fault, HLT and every other instruction apart. -/
theorem statusTransitionsAreThoseListed : Obligations.StatusTransitionsAreThoseListed := by
  intro s t h
  refine ⟨fun hs => ⟨step_halted_iff hs h, ⟨fun hf => ?_, ?_⟩, step_running_iff hs h⟩,
    fun hs => by rw [step_terminal_eq hs h]⟩
  · obtain ⟨c, hc, rfl⟩ := (step_faulted_iff hs h).1 hf
    exact ⟨c.kind, c.value, c.slot, rfl, hc.kind_mem⟩
  · rintro ⟨kind, value, slot, rfl, -⟩
    rfl

/-- Settles O25: a load that succeeds leaves the reset state with the image in memory. -/
theorem loadStartsAtAddressZero : Obligations.LoadStartsAtAddressZero := by
  intro p text image hparse hfit
  rw [loadText_eq_loaded hparse hfit]
  exact ⟨rfl, rfl, Memory.size_ofList image, Memory.read_ofList image, rfl, rfl, rfl, rfl⟩

end Sys2Proof.Proofs
end

section
/-!
SUPPORT. The decoder on a word that is not negative, an equation per way it fails (30_encoding.md R60 to R63), and the
step at a word that is no instruction.
-/
namespace Sys2Proof

theorem decode_natCast (w : Nat) : decode w = decodeNat w := by
  rw [decode, if_neg (Int.natCast_nonneg w).not_gt, Int.toNat_natCast]

/-- A number that is not one of the five opcodes has no row (R59). -/
theorem opcodeRow_eq_none {op : Nat} (h : op ∉ [1, 2, 3, 4, 99]) : opcodeRow op = none := by
  unfold opcodeRow
  split
  case h_6 => rfl
  all_goals exact absurd (by decide) h

/-- The number of operands of each opcode (R59). -/
theorem exists_opcodeRow_eq_some {op nops : Nat} (h : (op, nops) ∈ [(1, 3), (2, 3), (3, 1), (4, 1), (99, 0)]) :
    ∃ instr, opcodeRow op = some (nops, instr) := by
  simp only [List.mem_cons, List.not_mem_nil, Prod.mk.injEq, or_false] at h
  obtain ⟨rfl, rfl⟩ | ⟨rfl, rfl⟩ | ⟨rfl, rfl⟩ | ⟨rfl, rfl⟩ | ⟨rfl, rfl⟩ := h <;> exact ⟨_, rfl⟩

/-- R61: the opcode is looked at first, so its fault does not depend on the digits above. -/
theorem decode_eq_unknownOpcode {w : Nat} (hrow : opcodeRow (w % 100) = none) :
    decode w = .error (.unknownOpcode (w % 100 : Nat)) := by
  rw [decode_natCast, decodeNat, hrow]

/-- The digit at mode position `k` has weight `10^(k+1)` in the word. -/
theorem modeDigit_eq (w i : Nat) : w / 100 / 10 ^ i % 10 = w / 10 ^ (1 + i + 1) % 10 := by
  rw [Nat.div_div_eq_div_mul, show 1 + i + 1 = 2 + i by omega, pow_add, show 10 ^ 2 = 100 from rfl]

/-- R62 and R63: under a known opcode the lowest mode digit that is not good is reported, with its position. -/
theorem decode_eq_unknownMode {w nops k : Nat} {instr : Mode → Mode → Mode → Instr}
    (hrow : opcodeRow (w % 100) = some (nops, instr)) (hk : 1 ≤ k)
    (good : ∀ j, 1 ≤ j → j < k → w / 10 ^ (j + 1) % 10 ≤ maxDigit nops j)
    (bad : maxDigit nops k < w / 10 ^ (k + 1) % 10) :
    decode w = .error (.unknownMode (w / 10 ^ (k + 1) % 10) k) := by
  obtain ⟨i, rfl⟩ := Nat.exists_eq_add_of_le hk
  have hloop : firstBadDigit nops 1 (decimalDigits w (w / 100)) =
      some (.unknownMode (w / 10 ^ (1 + i + 1) % 10) (1 + i)) := by
    rw [← modeDigit_eq] at bad ⊢
    refine firstBadDigit_eq_some nops 1 w (w / 100) i (Nat.div_le_self w 100) (fun j hj => ?_) bad.not_ge
    rw [modeDigit_eq]
    exact good (1 + j) (by omega) (by omega)
  rw [decode_natCast, decodeNat, hrow]
  simp only [hloop]

end Sys2Proof

namespace Sys2Proof.Machine

/-- A step at a word that is no instruction takes the decoder's fault, whatever else memory holds
(42_control.md R94). -/
theorem step_eq_raise_decodeCause {s : State} {w : Int} {e : DecodeError} (hs : s.status = .running)
    (hw : s.mem.read s.pc = some w) (hd : decode w = .error e) : step s = .next (s.raise (decodeCause e)) := by
  have hfetch : fetchInstr s = .error (decodeCause e) := fetchInstr_eq_error_iff.2 (.inr ⟨w, e, hw, hd, rfl⟩)
  simp only [step, hs, hfetch, settle]

end Sys2Proof.Machine
end

section
/-!
SUPPORT. The proofs of the statements of 30_encoding.md.
-/
namespace Sys2Proof.Proofs

open Machine

/-- Settles O4: a word without a row in the opcode table fails to decode before anything else is looked at. -/
theorem unknownOpcodeIsReported : Obligations.UnknownOpcodeIsReported := by
  intro w hop
  have hdecode := decode_eq_unknownOpcode (opcodeRow_eq_none hop)
  exact ⟨hdecode, fun s hs hw => step_eq_raise_decodeCause hs hw hdecode⟩

/-- Settles O6: every position up to `k` is in use, so 0 and 1 are good below `k` and the digit at `k` is not. -/
theorem unknownModeDigitIsReported : Obligations.UnknownModeDigitIsReported := by
  intro w nops k hop hk hknops hbad hgood
  obtain ⟨instr, hrow⟩ := exists_opcodeRow_eq_some (List.mem_append_left [(99, 0)] hop)
  have hmax : ∀ j, j ≤ k → maxDigit nops j = 1 := fun j hj => if_pos (hj.trans hknops)
  have hdecode : decode w = .error (.unknownMode (w / 10 ^ (k + 1) % 10) k) := by
    refine decode_eq_unknownMode hrow hk (fun j hj hjk => ?_) ?_
    · rw [hmax j hjk.le]
      exact hgood j hj hjk
    · rw [hmax k le_rfl]
      exact hbad
  exact ⟨hdecode, fun s hs hw => step_eq_raise_decodeCause hs hw hdecode⟩

end Sys2Proof.Proofs
end

section
/-!
SUPPORT. A word that decodes is the word of its instruction (30_encoding.md R59, R60), and a word with a known opcode that
is no instruction's word has a bad mode digit (R62, R63).
-/
namespace Sys2Proof

theorem eq_zero_of_decimal_digits_eq_zero {n : Nat} (h : ∀ j, n / 10 ^ j % 10 = 0) : n = 0 := by
  induction n using Nat.strong_induction_on with
  | _ n ih =>
    by_contra hn
    have hones : n % 10 = 0 := by simpa using h 0
    have htens : n / 10 = 0 := ih (n / 10) (by omega) fun j => by
      rw [Nat.div_div_eq_div_mul, ← pow_succ']
      exact h (j + 1)
    omega

theorem toDigit_modeOfDigit {d : Nat} (h : d ≤ 1) : (modeOfDigit d).toDigit = d := by
  obtain rfl | rfl := Nat.le_one_iff_eq_zero_or_eq_one.1 h <;> rfl

theorem maxDigit_le_one (nops k : Nat) : maxDigit nops k ≤ 1 := by
  unfold maxDigit
  split <;> omega

theorem opcodeRow_nops_le {op nops : Nat} {instr : Mode → Mode → Mode → Instr} (h : opcodeRow op = some (nops, instr)) :
    nops ≤ 3 := by
  unfold opcodeRow at h
  split at h <;> cases h <;> decide

/-- A row's opcode and the mode digits it uses, every other mode digit being 0, make up the word of its instruction
(R59). -/
theorem encode_of_opcodeRow {op nops : Nat} {instr : Mode → Mode → Mode → Instr} (h : opcodeRow op = some (nops, instr))
    {m1 m2 m3 : Mode} (h1 : m1.toDigit ≤ maxDigit nops 1) (h2 : m2.toDigit ≤ maxDigit nops 2)
    (h3 : m3.toDigit ≤ maxDigit nops 3) :
    encode (instr m1 m2 m3) = (op + 100 * m1.toDigit + 1000 * m2.toDigit + 10000 * m3.toDigit : Nat) := by
  unfold opcodeRow at h
  split at h <;> cases h
  all_goals
    simp only [maxDigit, Nat.reduceLeDiff, le_refl, reduceIte] at h1 h2 h3
    rw [encode]
    omega

/-- A word whose digits above a known opcode are all good is the word of the instruction they make. -/
theorem natCast_eq_encode {w nops : Nat} {instr : Mode → Mode → Mode → Instr}
    (hrow : opcodeRow (w % 100) = some (nops, instr)) (hgood : ∀ j, w / 100 / 10 ^ j % 10 ≤ maxDigit nops (1 + j)) :
    (w : Int) = encode (instr (modeOfDigit (digit w 2)) (modeOfDigit (digit w 3)) (modeOfDigit (digit w 4))) := by
  have hmode : ∀ j, (modeOfDigit (digit w (2 + j))).toDigit = w / 100 / 10 ^ j % 10 := fun j => by
    have hdigit : digit w (2 + j) = w / 100 / 10 ^ j % 10 := by
      rw [digit, pow_add, ← Nat.div_div_eq_div_mul]
      rfl
    rw [hdigit, toDigit_modeOfDigit ((hgood j).trans (maxDigit_le_one _ _))]
  have htop : w / 100 / 10 ^ 3 = 0 := eq_zero_of_decimal_digits_eq_zero fun j => by
    have hzero : maxDigit nops (1 + (3 + j)) = 0 := if_neg (by have := opcodeRow_nops_le hrow; omega)
    rw [Nat.div_div_eq_div_mul _ (10 ^ 3), ← pow_add]
    exact Nat.le_zero.1 (hzero ▸ hgood (3 + j))
  have h1 := hmode 0
  have h2 := hmode 1
  have h3 := hmode 2
  rw [encode_of_opcodeRow hrow (h1 ▸ hgood 0) (h2 ▸ hgood 1) (h3 ▸ hgood 2), h1, h2, h3]
  omega

theorem eq_encode_of_decode_eq_ok {w : Int} {i : Instr} (h : decode w = .ok i) : w = encode i := by
  obtain ⟨n, rfl, -⟩ := decode_ok_opcode_arity h
  rw [decode_natCast, decodeNat] at h
  split at h
  next => cases h
  next hrow =>
    split at h
    next => cases h
    next hloop =>
      cases h
      exact natCast_eq_encode hrow ((firstBadDigit_eq_none_iff _ _ _ _ (Nat.div_le_self n 100)).1 hloop)

theorem decode_encode (i : Instr) : decode (encode i) = .ok i := by
  cases i with
  | add m1 m2 m3 => cases m1 <;> cases m2 <;> cases m3 <;> rfl
  | mul m1 m2 m3 => cases m1 <;> cases m2 <;> cases m3 <;> rfl
  | inp m1 => cases m1 <;> rfl
  | out m1 => cases m1 <;> rfl
  | hlt => rfl

/-- The words of an instruction are its one word. -/
theorem decode_eq_ok_iff {w : Int} {i : Instr} : decode w = .ok i ↔ w = encode i :=
  ⟨eq_encode_of_decode_eq_ok, fun h => h ▸ decode_encode i⟩

theorem encode_mem_legalWords (i : Instr) : encode i ∈ legalWords := by
  have hlegal : Laws.LegalWord.Statement i := by
    cases i with
    | add m1 m2 m3 => exact Laws.LegalWord.add m1 m2 m3
    | mul m1 m2 m3 => exact Laws.LegalWord.mul m1 m2 m3
    | inp m1 => exact Laws.LegalWord.inp m1
    | out m1 => exact Laws.LegalWord.out m1
    | hlt => exact Laws.LegalWord.hlt
  obtain ⟨-, hmem, -⟩ := hlegal
  exact hmem

/-- The loop over the mode digits reports nothing but a mode digit. -/
theorem exists_unknownMode_of_firstBadDigit {nops k : Nat} {ds : List Nat} {e : DecodeError}
    (h : firstBadDigit nops k ds = some e) : ∃ d j, e = .unknownMode d j := by
  induction ds generalizing k with
  | nil => cases h
  | cons d ds ih =>
    unfold firstBadDigit at h
    split at h
    next => exact ih h
    next =>
      cases h
      exact ⟨d, k, rfl⟩

/-- R62 and R63: a word of a known opcode that is not legal fails at a mode digit. -/
theorem exists_unknownMode_of_not_mem_legalWords {w nops : Nat} {instr : Mode → Mode → Mode → Instr}
    (hrow : opcodeRow (w % 100) = some (nops, instr)) (hw : (w : Int) ∉ legalWords) :
    ∃ d k, decode w = .error (.unknownMode d k) := by
  cases hd : decode w with
  | ok i => exact absurd (eq_encode_of_decode_eq_ok hd ▸ encode_mem_legalWords i) hw
  | error e =>
    simp only [decode_natCast, decodeNat, hrow] at hd
    split at hd
    next hloop =>
      cases hd
      obtain ⟨d, k, rfl⟩ := exists_unknownMode_of_firstBadDigit hloop
      exact ⟨d, k, rfl⟩
    next => cases hd

end Sys2Proof
end

section
/-!
SUPPORT. ADD and MUL for any operation on two integers (40_arithmetic.md): how the instruction ends when it completes and
at each of its faults, and the frame of both.
-/
namespace Sys2Proof.Machine

section
variable {op : Int → Int → Int} {m1 m2 : Mode} {s : State}

theorem settle_error_eq {r : Except Cause State} {c : Cause} (h : r = .error c) :
    settle s r = .next (faultedWith s c.kind c.value c.slot) := by
  rw [h]
  rfl

theorem settle_aluInstr_completes (a b : Int) (d : Nat) (ha : OperandReads s 1 m1 a) (hb : OperandReads s 2 m2 b)
    (hd : DestIs s 3 d) (hfits : fitsCell s.params.width (op a b) = true) :
    settle s (aluInstr op m1 m2 s) = .next { s with mem := s.mem.write d (op a b), pc := s.pc + 4 } := by
  rw [aluInstr_eq_ok_iff.2 ⟨a, b, d, ha, hb, hd, hfits, rfl⟩]
  rfl

theorem settle_aluInstr_faults_at_operand1 (x : Int) (hx : OperandFaultsAt s 1 m1 x) :
    settle s (aluInstr op m1 m2 s) = .next (faultedWith s .addressOutOfBounds x none) :=
  settle_error_eq (c := badAddress x) (aluInstr_eq_error_iff.2 (.inl ⟨x, hx, rfl⟩))

theorem settle_aluInstr_faults_at_operand2 (a x : Int) (ha : OperandReads s 1 m1 a) (hx : OperandFaultsAt s 2 m2 x) :
    settle s (aluInstr op m1 m2 s) = .next (faultedWith s .addressOutOfBounds x none) :=
  settle_error_eq (c := badAddress x) (aluInstr_eq_error_iff.2 (.inr ⟨a, ha, .inl ⟨x, hx, rfl⟩⟩))

theorem settle_aluInstr_faults_at_dest (a b x : Int) (ha : OperandReads s 1 m1 a) (hb : OperandReads s 2 m2 b)
    (hx : DestFaultsAt s 3 x) :
    settle s (aluInstr op m1 m2 s) = .next (faultedWith s .addressOutOfBounds x none) :=
  settle_error_eq (c := badAddress x) (aluInstr_eq_error_iff.2 (.inr ⟨a, ha, .inr ⟨b, hb, .inl ⟨x, hx, rfl⟩⟩⟩))

theorem settle_aluInstr_overflows (a b : Int) (d : Nat) (ha : OperandReads s 1 m1 a) (hb : OperandReads s 2 m2 b)
    (hd : DestIs s 3 d) (hfits : fitsCell s.params.width (op a b) = false) :
    settle s (aluInstr op m1 m2 s) = .next (faultedWith s .arithmeticOverflow (op a b) none) :=
  settle_error_eq (aluInstr_eq_error_iff.2 (.inr ⟨a, ha, .inr ⟨b, hb, .inr ⟨d, hd, hfits, rfl⟩⟩⟩))

end

/-- R62 and R63 at the step: a word of a known opcode that is not legal faults when it is decoded. -/
theorem step_eq_unknownParameterMode {s : State} {w nops : Nat} {instr : Mode → Mode → Mode → Instr}
    (hrow : opcodeRow (w % 100) = some (nops, instr)) (hw : (w : Int) ∉ legalWords) (hs : s.status = .running)
    (hread : s.mem.read s.pc = some (w : Int)) :
    ∃ (d : Int) (k : Nat), step s = .next (faultedWith s .unknownParameterMode d (some k)) := by
  obtain ⟨d, k, hd⟩ := exists_unknownMode_of_not_mem_legalWords hrow hw
  exact ⟨d, k, step_eq_raise_decodeCause hs hread hd⟩

/-- R75: an ADD or a MUL ends with one write, to its destination cell, and `PC + 4`, or with a fault. -/
theorem exec_alu_cases {m1 m2 m3 : Mode} {i : Instr} {s t : State} (hi : i = .add m1 m2 m3 ∨ i = .mul m1 m2 m3)
    (h : exec i s = .next t) :
    (∃ d r, DestIs s 3 d ∧ t = (s.writeCell d r).advance 4) ∨ ∃ c, t = s.raise c := by
  obtain ⟨op, heffect⟩ : ∃ op, effect i s = aluInstr op m1 m2 s := by
    obtain rfl | rfl := hi <;> exact ⟨_, rfl⟩
  obtain hok | ⟨c, -, rfl⟩ := exec_cases h
  · obtain ⟨a, b, d, -, -, hd, -, rfl⟩ := aluInstr_eq_ok_iff.1 (heffect ▸ hok)
    exact .inl ⟨d, op a b, hd, rfl⟩
  · exact .inr ⟨c, rfl⟩

theorem destIs_unique {s : State} {k d d' : Nat} (h : DestIs s k d) (h' : DestIs s k d') : d = d' :=
  Except.ok.inj ((destAddress_eq_ok_iff.2 h).symm.trans (destAddress_eq_ok_iff.2 h'))

end Sys2Proof.Machine
end

section
/-!
SUPPORT. The proofs of the statements of 40_arithmetic.md.
-/
namespace Sys2Proof.Proofs

open Machine

/-- Settles O8: ADD's one word, and the ends of the shared instruction with the sum. -/
theorem addStoresTheSum : Obligations.AddStoresTheSum := by
  intro m1 m2 m3 s
  refine ⟨fun w => ?_, settle_aluInstr_completes, settle_aluInstr_faults_at_operand1,
    settle_aluInstr_faults_at_operand2, settle_aluInstr_faults_at_dest, settle_aluInstr_overflows,
    fun w hop => step_eq_unknownParameterMode (by rw [hop]; rfl)⟩
  rw [decode_eq_ok_iff, encode]
  omega

/-- Settles O9: MUL's one word, and the ends of the shared instruction with the product. -/
theorem mulStoresTheProduct : Obligations.MulStoresTheProduct := by
  intro m1 m2 m3 s
  refine ⟨fun w => ?_, settle_aluInstr_completes, settle_aluInstr_faults_at_operand1,
    settle_aluInstr_faults_at_operand2, settle_aluInstr_faults_at_dest, settle_aluInstr_overflows,
    fun w hop => step_eq_unknownParameterMode (by rw [hop]; rfl)⟩
  rw [decode_eq_ok_iff, encode]
  omega

/-- Settles O13: the state is the one with the destination cell written, or the one with the fault taken. -/
theorem aluInstructionsWriteOneCell : Obligations.AluInstructionsWriteOneCell := by
  intro m1 m2 m3 i s t hi h
  obtain ⟨d, r, hd, rfl⟩ | ⟨c, rfl⟩ := exec_alu_cases hi h
  · refine ⟨rfl, rfl, rfl, Memory.write_size s.mem d r, fun d' hd' x hx => ?_,
      .inl ⟨rfl, rfl, rfl, d, destAddress_eq_ok_iff.2 hd⟩, fun _ => ⟨rfl, rfl⟩⟩
    obtain rfl := destIs_unique hd (destAddress_eq_ok_iff.1 hd')
    exact Memory.read_write_other s.mem r hx
  · exact ⟨rfl, rfl, rfl, rfl, fun _ _ _ _ => rfl, .inr ⟨rfl, rfl, fun _ => rfl⟩, fun _ => ⟨rfl, rfl⟩⟩

end Sys2Proof.Proofs
end

section
/-!
SUPPORT. The proofs of the statements of 41_io.md.
-/
namespace Sys2Proof.Proofs

open Machine

/-- Settles O11: OUT's one word, and its two ends, which are those of reading its one operand. -/
theorem outEmitsItsOperand : Obligations.OutEmitsItsOperand := by
  intro m1 s
  refine ⟨fun w => ?_, fun v hv => ?_, fun x hx => ?_⟩
  · rw [decode_eq_ok_iff, encode]
    omega
  · have hok : effect (.out m1) s = .ok ((s.emit v).advance 2) := outputInstr_eq_ok_iff.2 ⟨v, hv, rfl⟩
    rw [exec_eq_settle, hok]
    rfl
  · exact settle_error_eq (c := badAddress x) (outputInstr_eq_error_iff.2 ⟨x, hx, rfl⟩)

end Sys2Proof.Proofs
end

section
/-!
SUPPORT. Where `AddressOutOfBounds` comes from (60_exceptions.md R103): the addresses that are no cell, the operand of an
instruction that meets one, and the fault record a step leaves.
-/
namespace Sys2Proof.Machine

theorem cellAt_eq_none_iff {s : State} (hwf : s.mem.wf) (a : Int) :
    cellAt s a = none ↔ a < 0 ∨ (s.mem.size : Int) ≤ a := by
  unfold cellAt
  split
  next ha =>
    rw [hwf.read_eq_none_iff]
    omega
  next ha => simp [not_le.1 ha]

theorem memRead_eq_badAddress_iff {s : State} (hwf : s.mem.wf) (a : Int) :
    memRead s a = .error (badAddress a) ↔ a < 0 ∨ (s.mem.size : Int) ≤ a := by
  rw [memRead_eq_error_iff, cellAt_eq_none_iff hwf, and_iff_left rfl]

/-- `PC <= N` (10_state.md R14), so the fetch misses memory at `N` alone. -/
theorem fetch_eq_none_iff {s : State} (hinv : Inv s) : s.mem.read s.pc = none ↔ s.pc = s.mem.size := by
  rw [hinv.memForm.read_eq_none_iff, le_antisymm_iff, and_iff_right hinv.pcInRange]

/-- A fetch outside memory is a fault of the step (42_control.md R94). -/
theorem step_eq_badFetch {s : State} (hs : s.status = .running) (hread : s.mem.read s.pc = none) :
    step s = .next (faultedWith s .addressOutOfBounds s.pc none) := by
  have hfetch : fetchInstr s = .error (badAddress s.pc) := fetchInstr_eq_error_iff.2 (.inl ⟨hread, rfl⟩)
  simp only [step, hs, hfetch]
  rfl

/-- An operand faults at an address that is no cell. -/
theorem cellAt_eq_none_of_operandFaultsAt {s : State} {k : Nat} {m : Mode} {a : Int} (h : OperandFaultsAt s k m a) :
    cellAt s a = none := by
  obtain ⟨hslot, rfl⟩ | ⟨-, -, hcell⟩ := h
  · rw [cellAt_natCast, hslot]
  · exact hcell

/-- The address an operand faults at is its slot's, or the one its slot holds. -/
theorem eq_slot_or_read_slot_of_operandFaultsAt {s : State} {k : Nat} {m : Mode} {a : Int}
    (h : OperandFaultsAt s k m a) : a = (s.pc + k : Nat) ∨ s.mem.read (s.pc + k) = some a := by
  obtain ⟨-, ha⟩ | ⟨-, hread, -⟩ := h
  · exact .inl ha
  · exact .inr hread

/-- ADD and MUL fault with `AddressOutOfBounds` at one of their three operands. -/
theorem aluInstr_badAddress {op : Int → Int → Int} {m1 m2 : Mode} {s : State} {c : Cause}
    (h : aluInstr op m1 m2 s = .error c) (hkind : c.kind = .addressOutOfBounds) :
    ∃ k m x, 1 ≤ k ∧ k < 4 ∧ OperandFaultsAt s k m x ∧ c = badAddress x := by
  obtain ⟨x, hx, hc⟩ | ⟨a, -, ⟨x, hx, hc⟩ | ⟨b, -, ⟨x, hx, hc⟩ | ⟨d, -, -, rfl⟩⟩⟩ := aluInstr_eq_error_iff.1 h
  · exact ⟨1, m1, x, by decide, by decide, hx, hc⟩
  · exact ⟨2, m2, x, by decide, by decide, hx, hc⟩
  · exact ⟨3, .position, x, by decide, by decide, hx, hc⟩
  · cases hkind

/-- An instruction faults with `AddressOutOfBounds` at one of its operands. -/
theorem effect_badAddress {i : Instr} {s : State} {c : Cause} (h : effect i s = .error c)
    (hkind : c.kind = .addressOutOfBounds) :
    ∃ k m x, 1 ≤ k ∧ k < i.arity ∧ OperandFaultsAt s k m x ∧ c = badAddress x := by
  cases i with
  | add m1 m2 m3 => exact aluInstr_badAddress h hkind
  | mul m1 m2 m3 => exact aluInstr_badAddress h hkind
  | inp m1 =>
    obtain ⟨x, hx, hc⟩ | ⟨d, -, ⟨-, rfl⟩ | ⟨v, -, -, rfl⟩⟩ := inputInstr_eq_error_iff.1 h
    · exact ⟨1, .position, x, le_rfl, Nat.one_lt_two, hx, hc⟩
    · cases hkind
    · cases hkind
  | out m1 =>
    obtain ⟨x, hx, hc⟩ := outputInstr_eq_error_iff.1 h
    exact ⟨1, m1, x, le_rfl, Nat.one_lt_two, hx, hc⟩
  | hlt => cases h

/-- A fetch faults with `AddressOutOfBounds` only where `PC` is no cell. -/
theorem fetchInstr_badAddress {s : State} {c : Cause} (h : fetchInstr s = .error c)
    (hkind : c.kind = .addressOutOfBounds) : s.mem.read s.pc = none ∧ c = badAddress s.pc := by
  obtain hfetch | ⟨-, e, -, -, rfl⟩ := fetchInstr_eq_error_iff.1 h
  · exact hfetch
  · cases e <;> cases hkind

theorem aluInstr_ok_fault {op : Int → Int → Int} {m1 m2 : Mode} {s t : State} (h : aluInstr op m1 m2 s = .ok t) :
    t.fault = s.fault := by
  obtain ⟨a, b, d, -, -, -, -, rfl⟩ := aluInstr_eq_ok_iff.1 h
  rfl

/-- An instruction that completes leaves `FAULT`. -/
theorem effect_ok_fault {i : Instr} {s t : State} (h : effect i s = .ok t) : t.fault = s.fault := by
  cases i with
  | add m1 m2 m3 => exact aluInstr_ok_fault h
  | mul m1 m2 m3 => exact aluInstr_ok_fault h
  | inp m1 =>
    obtain ⟨d, v, -, -, -, rfl⟩ := inputInstr_eq_ok_iff.1 h
    rfl
  | out m1 =>
    obtain ⟨v, -, rfl⟩ := outputInstr_eq_ok_iff.1 h
    rfl
  | hlt =>
    cases h
    rfl

/-- Under the invariant no fault stands before the step (10_state.md R17). -/
theorem fault_eq_none_of_running {s : State} (hinv : Inv s) (hs : s.status = .running) : s.fault = none := by
  rw [← Option.not_isSome_iff_eq_none, hinv.faultStatus, hs]
  decide

/-- The record a step leaves is that of the fetch's fault or of the fault of the instruction at `PC`. -/
theorem step_fault_cases {s t : State} {r : FaultRecord} (hinv : Inv s) (hs : s.status = .running)
    (h : step s = .next t) (hr : t.fault = some r) :
    ∃ c : Cause, r = { kind := c.kind, value := c.value, slot := c.slot, pc := s.pc } ∧
      (fetchInstr s = .error c ∨ ∃ i, AtInstr s i ∧ effect i s = .error c) := by
  obtain ⟨hn, -⟩ | ⟨-, c, hc, rfl⟩ | ⟨-, i, hi, he⟩ := step_cases h
  · exact absurd hs hn
  · exact ⟨c, (Option.some.inj hr).symm, .inl hc⟩
  · obtain hok | ⟨c, hc, rfl⟩ := exec_cases he
    · rw [effect_ok_fault hok, fault_eq_none_of_running hinv hs] at hr
      cases hr
    · exact ⟨c, (Option.some.inj hr).symm, .inr ⟨i, hi, hc⟩⟩

end Sys2Proof.Machine
end

section
/-!
SUPPORT. The proofs of the statements of 60_exceptions.md.
-/
namespace Sys2Proof.Proofs

open Machine

/-- Settles O22: a fault record with `AddressOutOfBounds` comes from the fetch at `N` or from an operand's bad address. -/
theorem addressFaultsRecordTheAddress : Obligations.AddressFaultsRecordTheAddress := by
  intro s t hinv hs h
  refine ⟨fun a => (memRead_eq_badAddress_iff hinv.memForm a).symm, fetch_eq_none_iff hinv, fun hpc => ?_,
    fun r hr hkind => ?_⟩
  · rw [step_eq_badFetch hs ((fetch_eq_none_iff hinv).2 hpc)] at h
    cases h
    rfl
  · obtain ⟨c, rfl, hfetch | ⟨i, hi, heffect⟩⟩ := step_fault_cases hinv hs h hr
    · obtain ⟨hread, rfl⟩ := fetchInstr_badAddress hfetch hkind
      have hpc := (fetch_eq_none_iff hinv).1 hread
      exact ⟨.inr (Int.ofNat_le.2 hpc.ge), rfl, rfl, .inl ⟨hpc, rfl⟩⟩
    · obtain ⟨k, m, x, hk, hki, hx, rfl⟩ := effect_badAddress heffect hkind
      exact ⟨(cellAt_eq_none_iff hinv.memForm x).1 (cellAt_eq_none_of_operandFaultsAt hx), rfl, rfl,
        .inr ⟨i, k, hi, hk, hki, eq_slot_or_read_slot_of_operandFaultsAt hx⟩⟩

end Sys2Proof.Proofs
end

section
/-!
SUPPORT. What an instruction writes when it completes, said once for each field of the state, and that the writes keep
the invariant of Safety.lean.
-/
namespace Sys2Proof.Machine

/-- Everything an instruction can do when it completes (40_arithmetic.md R70 and R71, 41_io.md R80 and R81,
42_control.md R90). -/
theorem effect_ok_cases {i : Instr} {s t : State} (h : effect i s = .ok t) :
    (∃ d r, (∃ m1 m2 m3, i = .add m1 m2 m3 ∨ i = .mul m1 m2 m3) ∧ DestIs s 3 d ∧ fitsCell s.params.width r = true ∧
      t = (s.writeCell d r).advance 4) ∨
    (∃ m1 d v, i = .inp m1 ∧ DestIs s 1 d ∧ inputAt s.params.input s.inPos = some v ∧
      fitsCell s.params.width v = true ∧ t = (s.consumeInput.writeCell d v).advance 2) ∨
    (∃ m1 v, i = .out m1 ∧ OperandReads s 1 m1 v ∧ t = (s.emit v).advance 2) ∨
    (i = .hlt ∧ t = s.halt.advance 1) := by
  cases i with
  | add m1 m2 m3 =>
    obtain ⟨a, b, d, -, -, hd, hf, rfl⟩ := aluInstr_eq_ok_iff.1 h
    exact .inl ⟨d, _, ⟨m1, m2, m3, .inl rfl⟩, hd, hf, rfl⟩
  | mul m1 m2 m3 =>
    obtain ⟨a, b, d, -, -, hd, hf, rfl⟩ := aluInstr_eq_ok_iff.1 h
    exact .inl ⟨d, _, ⟨m1, m2, m3, .inr rfl⟩, hd, hf, rfl⟩
  | inp m1 =>
    obtain ⟨d, v, hd, hv, hf, rfl⟩ := inputInstr_eq_ok_iff.1 h
    exact .inr (.inl ⟨m1, d, v, rfl, hd, hv, hf, rfl⟩)
  | out m1 =>
    obtain ⟨v, hv, rfl⟩ := outputInstr_eq_ok_iff.1 h
    exact .inr (.inr (.inl ⟨m1, v, rfl, hv, rfl⟩))
  | hlt =>
    cases h
    exact .inr (.inr (.inr ⟨rfl, rfl⟩))

/-- An instruction that completes leaves `W` and `INPUT` (00_scope.md R4). -/
theorem effect_ok_params {i : Instr} {s t : State} (h : effect i s = .ok t) : t.params = s.params := by
  obtain ⟨d, r, -, -, -, rfl⟩ | ⟨m1, d, v, -, -, -, -, rfl⟩ | ⟨m1, v, -, -, rfl⟩ | ⟨-, rfl⟩ := effect_ok_cases h
  all_goals rfl

/-- Operand `k` of `i` is a destination: the third of ADD and MUL, the first of IN (30_encoding.md R59). -/
def IsDestSlot (i : Instr) (k : Nat) : Prop :=
  ((∃ m1 m2 m3, i = .add m1 m2 m3 ∨ i = .mul m1 m2 m3) ∧ k = 3) ∨ ((∃ m1, i = .inp m1) ∧ k = 1)

/-- An instruction that completes leaves memory, or writes a value of the width in its destination cell
(20_memory.md section 2). -/
theorem effect_ok_mem {i : Instr} {s t : State} (h : effect i s = .ok t) :
    t.mem = s.mem ∨ ∃ k d v, IsDestSlot i k ∧ DestIs s k d ∧ fitsCell s.params.width v = true ∧
      t.mem = s.mem.write d v := by
  obtain ⟨d, r, hi, hd, hf, rfl⟩ | ⟨m1, d, v, hi, hd, -, hf, rfl⟩ | ⟨m1, v, -, -, rfl⟩ | ⟨-, rfl⟩ := effect_ok_cases h
  · exact .inr ⟨3, d, r, .inl ⟨hi, rfl⟩, hd, hf, rfl⟩
  · exact .inr ⟨1, d, v, .inr ⟨⟨m1, hi⟩, rfl⟩, hd, hf, rfl⟩
  · exact .inl rfl
  · exact .inl rfl

/-- OUT alone writes `OUT_LOG` (41_io.md R83). -/
theorem effect_ok_outLog {i : Instr} {s t : State} (h : effect i s = .ok t) (hi : ∀ m1, i ≠ .out m1) :
    t.outLog = s.outLog := by
  obtain ⟨d, r, -, -, -, rfl⟩ | ⟨m1, d, v, -, -, -, -, rfl⟩ | ⟨m1, v, rfl, -, -⟩ | ⟨-, rfl⟩ := effect_ok_cases h
  · rfl
  · rfl
  · exact absurd rfl (hi m1)
  · rfl

/-- IN alone writes `IN_POS` (10_state.md R20). -/
theorem effect_ok_inPos {i : Instr} {s t : State} (h : effect i s = .ok t) (hi : ∀ m1, i ≠ .inp m1) :
    t.inPos = s.inPos := by
  obtain ⟨d, r, -, -, -, rfl⟩ | ⟨m1, d, v, rfl, -, -, -, -⟩ | ⟨m1, v, -, -, rfl⟩ | ⟨-, rfl⟩ := effect_ok_cases h
  · rfl
  · exact absurd rfl (hi m1)
  · rfl
  · rfl

/-- No instruction changes which addresses are cells (20_memory.md R31). -/
theorem effect_ok_keys {i : Instr} {s t : State} (h : effect i s = .ok t) :
    t.mem.map Prod.fst = s.mem.map Prod.fst := by
  obtain hmem | ⟨k, d, v, -, -, -, hmem⟩ := effect_ok_mem h
  · rw [hmem]
  · rw [hmem, Memory.write_keys]

/-- No step changes which addresses are cells. -/
theorem step_keys {s t : State} (h : step s = .next t) : t.mem.map Prod.fst = s.mem.map Prod.fst := by
  by_cases hs : s.status = .running
  · obtain ⟨c, -, rfl⟩ | ⟨i, -, hok⟩ := step_running_cases hs h
    · rfl
    · exact effect_ok_keys hok
  · rw [step_terminal_eq hs h]

/-- As many addresses are listed as there are cells. -/
theorem Memory.size_eq_of_keys_eq {m m' : Memory} (hkeys : m'.map Prod.fst = m.map Prod.fst) : m'.size = m.size := by
  simpa [Memory.size] using congrArg List.length hkeys

/-- No step changes `N` (10_state.md R19). -/
theorem step_size {s t : State} (h : step s = .next t) : t.mem.size = s.mem.size :=
  Memory.size_eq_of_keys_eq (step_keys h)

/-- The canonical form speaks of the listed addresses alone. -/
theorem Memory.wf.of_keys_eq {m m' : Memory} (h : m.wf) (hkeys : m'.map Prod.fst = m.map Prod.fst) : m'.wf := by
  have hlength : m'.length = m.length := Memory.size_eq_of_keys_eq hkeys
  rw [Memory.wf, hkeys, hlength, h]

/-- Every step keeps the canonical form of memory. -/
theorem step_wf {s t : State} (hwf : s.mem.wf) (h : step s = .next t) : t.mem.wf :=
  hwf.of_keys_eq (step_keys h)

theorem Memory.wf.lt_size_of_read {m : Memory} (h : m.wf) {a : Nat} {v : Int} (hread : m.read a = some v) :
    a < m.size :=
  (h.read_isSome_iff a).1 (by rw [hread]; rfl)

/-- The last cell of an instruction that completes is a cell, so it advances to `N` at most (10_state.md R14). -/
theorem pc_add_arity_le {i : Instr} {s t : State} (hwf : s.mem.wf) (hi : AtInstr s i) (h : effect i s = .ok t) :
    s.pc + i.arity ≤ s.mem.size := by
  obtain ⟨d, r, ⟨m1, m2, m3, rfl | rfl⟩, ⟨hslot, -⟩, -⟩ | ⟨m1, d, v, rfl, ⟨hslot, -⟩, -⟩ |
    ⟨m1, v, rfl, ⟨p, hslot, -⟩, -⟩ | ⟨rfl, -⟩ := effect_ok_cases h
  · exact hwf.lt_size_of_read hslot
  · exact hwf.lt_size_of_read hslot
  · exact hwf.lt_size_of_read hslot
  · exact hwf.lt_size_of_read hslot
  · obtain ⟨w, hw, -⟩ := hi
    exact hwf.lt_size_of_read hw

/-- A finite input has a value at `IN_POS` only where it is not used up (41_io.md R82). -/
theorem inPos_lt_of_inputAt {q : InputSeq} {i n : Nat} {v : Int} (hv : inputAt q i = some v)
    (hn : inputLength q = some n) : i < n := by
  by_contra hle
  rw [inputAt_eq_none_iff.2 ⟨n, hn, not_lt.1 hle⟩] at hv
  cases hv

/-- Taking a raisable fault keeps the invariant. -/
theorem inv_raise {s : State} {c : Cause} (hinv : Inv s) (hc : Raisable c) : Inv (s.raise c) := by
  obtain ⟨-, hslot⟩ := hc
  refine ⟨hinv.memForm, hinv.pcInRange, iff_of_true rfl rfl, fun r hr => ?_, fun r hr => ?_, hinv.cellsFit,
    hinv.inputPos⟩
  · cases hr
    rfl
  · cases hr
    exact hslot

theorem effect_ok_cellsFit {i : Instr} {s t : State} (hfit : ∀ x ∈ s.mem, fitsCell s.params.width x.2 = true)
    (h : effect i s = .ok t) : ∀ x ∈ t.mem, fitsCell t.params.width x.2 = true := by
  intro x hx
  rw [effect_ok_params h]
  obtain hmem | ⟨k, d, v, -, -, hv, hmem⟩ := effect_ok_mem h
  · exact hfit x (hmem ▸ hx)
  · obtain hold | rfl := Memory.mem_write (hmem ▸ hx)
    · exact hfit x hold
    · exact hv

theorem effect_ok_inputPos {i : Instr} {s t : State}
    (hpos : ∀ n, inputLength s.params.input = some n → s.inPos ≤ n) (h : effect i s = .ok t) :
    ∀ n, inputLength t.params.input = some n → t.inPos ≤ n := by
  obtain ⟨d, r, -, -, -, rfl⟩ | ⟨m1, d, v, -, -, hv, -, rfl⟩ | ⟨m1, v, -, -, rfl⟩ | ⟨-, rfl⟩ := effect_ok_cases h
  · exact hpos
  · exact fun n hn => inPos_lt_of_inputAt hv hn
  · exact hpos
  · exact hpos

/-- An instruction that completes from `Running` keeps the invariant. -/
theorem inv_of_effect_ok {i : Instr} {s t : State} (hinv : Inv s) (hs : s.status = .running) (hi : AtInstr s i)
    (h : effect i s = .ok t) : Inv t := by
  have hkeys := effect_ok_keys h
  have hfault : t.fault = none := (effect_ok_fault h).trans (fault_eq_none_of_running hinv hs)
  refine ⟨hinv.memForm.of_keys_eq hkeys, ?_, ?_, ?_, ?_, effect_ok_cellsFit hinv.cellsFit h,
    effect_ok_inputPos hinv.inputPos h⟩
  · rw [(effect_ok_pc_status h).1, Memory.size_eq_of_keys_eq hkeys]
    exact pc_add_arity_le hinv.memForm hi h
  · rw [hfault, completed_status hs h]
    split <;> decide
  · simp [hfault]
  · simp [hfault]

theorem inv_step {s t : State} (hinv : Inv s) (h : step s = .next t) : Inv t := by
  by_cases hs : s.status = .running
  · obtain ⟨c, hc, rfl⟩ | ⟨i, hi, hok⟩ := step_running_cases hs h
    · exact inv_raise hinv hc
    · exact inv_of_effect_ok hinv hs hi hok
  · rw [step_terminal_eq hs h]
    exact hinv

end Sys2Proof.Machine
end

section
/-!
SUPPORT. The proofs of the two statements of tier 3: decoding against encoding, and the invariant of the step.
-/
namespace Sys2Proof.Proofs

open Machine

/-- Settles O1: each instruction has one word, which decodes to it. -/
theorem decodeInvertsEncode : Obligations.DecodeInvertsEncode :=
  fun _ _ => decode_eq_ok_iff

/-- Settles O33: a fault keeps the invariant, and so does an instruction that completes. -/
theorem stepKeepsTheInvariant : Obligations.StepKeepsTheInvariant :=
  fun _ _ => inv_step

end Sys2Proof.Proofs
end

section
/-!
SUPPORT. The proofs of the other statements of 30_encoding.md, and of HLT's word.
-/
namespace Sys2Proof.Proofs

open Machine

theorem exists_decode_of_mem_legalWords {w : Int} (h : w ∈ legalWords) : ∃ i, decode w = .ok i := by
  have hall : ∀ w ∈ legalWords, (decode w).isOk = true := by decide
  have hok := hall w h
  cases hd : decode w with
  | ok i => exact ⟨i, rfl⟩
  | error e =>
    rw [hd] at hok
    cases hok

/-- Settles O2: the word of an instruction is in the table, and each word of the table decodes. -/
theorem legalWordsAreTheOpcodeTable : Obligations.LegalWordsAreTheOpcodeTable := by
  intro w
  refine ⟨?_, exists_decode_of_mem_legalWords⟩
  rintro ⟨i, hi⟩
  exact eq_encode_of_decode_eq_ok hi ▸ encode_mem_legalWords i

/-- Settles O3: each of the five words is the word of its instruction. -/
theorem decodesOneWordOfEachInstruction : Obligations.DecodesOneWordOfEachInstruction :=
  ⟨decode_encode (.add .position .immediate .immediate), decode_encode (.mul .position .immediate .position),
    decode_encode (.inp .immediate), decode_encode (.out .immediate), decode_encode .hlt⟩

/-- Settles O5: the sign is looked at before any digit. -/
theorem negativeWordIsNoInstruction : Obligations.NegativeWordIsNoInstruction := by
  intro w hw
  have hdecode : decode w = .error (.unknownOpcode w) := if_pos hw
  exact ⟨hdecode, fun s hs hread => step_eq_raise_decodeCause hs hread hdecode⟩

/-- Settles O7: the good digits are 0 and 1 up to the last position in use and 0 above, so the digit at `k` is the
lowest that is not good. -/
theorem reservedDigitIsReported : Obligations.ReservedDigitIsReported := by
  intro w nops k hop hk hbad hused hreserved
  obtain ⟨instr, hrow⟩ := exists_opcodeRow_eq_some hop
  have hdecode : decode w = .error (.unknownMode (w / 10 ^ (k + 1) % 10) k) := by
    refine decode_eq_unknownMode hrow (by omega) (fun j hj hjk => ?_) ?_
    · unfold maxDigit
      split
      next hjn => exact hused j hj hjn
      next hjn => exact (hreserved j (not_le.1 hjn) hjk).le
    · rw [maxDigit, if_neg (not_le.2 hk)]
      exact Nat.pos_of_ne_zero hbad
  exact ⟨hdecode, fun s hs hread => step_eq_raise_decodeCause hs hread hdecode⟩

theorem listing_cells_of_instr {l : Line} {i : Instr} (h : l.instr = some i) :
    l.cells.length = i.arity ∧ l.cells.head? = some (encode i) := by
  cases l with
  | data n => cases h
  | _ => cases h; exact ⟨rfl, rfl⟩

theorem toDigit_mode_of_sourceWritten {a : SourceOperand} {digit : Nat} {param : Int}
    (h : SourceWritten a digit param) :
    a.mode.toDigit = digit ∧ a.param = param := by
  obtain ⟨rfl, rfl⟩ | ⟨rfl, rfl⟩ := h <;> exact ⟨rfl, rfl⟩

theorem toDigit_mode_of_destWritten {d : DestOperand} {digit : Nat} {param : Int}
    (h : DestWritten d digit param) :
    d.mode.toDigit = digit ∧ d.param = param := by
  obtain ⟨rfl, rfl⟩ | ⟨rfl, rfl⟩ := h <;> exact ⟨rfl, rfl⟩

/-- Settles O29: a line's first cell is its instruction's word, whose digits are those of the operands as written. -/
theorem listingLinesDecodeToTheirInstruction : Obligations.ListingLinesDecodeToTheirInstruction := by
  refine ⟨fun l i hi => ?_, fun a b d digitA digitB digitD pa pb pd ha hb hd => ?_, rfl, fun n => rfl, fun l => ?_⟩
  · obtain ⟨hlength, hhead⟩ := listing_cells_of_instr hi
    exact ⟨hlength, encode i, hhead, decode_encode i⟩
  · obtain ⟨rfl, rfl⟩ := toDigit_mode_of_sourceWritten ha
    obtain ⟨rfl, rfl⟩ := toDigit_mode_of_sourceWritten hb
    obtain ⟨rfl, rfl⟩ := toDigit_mode_of_destWritten hd
    simp only [Line.cells, encode, Nat.mul_comm _ 100, Nat.mul_comm _ 1000, Nat.mul_comm _ 10000, and_self]
  · cases l <;> simp [Line.instr]

end Sys2Proof.Proofs
end

section
/-!
SUPPORT. The proofs of the statements about IN, OUT and HLT (41_io.md, 42_control.md section 1).
-/
namespace Sys2Proof.Proofs

open Machine

/-- Settles O10: IN's one word, and its four ends in the order of its checks. -/
theorem inStoresTheNextInput : Obligations.InStoresTheNextInput := by
  intro m1 s
  refine ⟨fun w => ?_, fun d v hd hv hf => ?_, fun x hx => ?_, fun d hd hnone => ?_, fun d v hd hv hf => ?_⟩
  · rw [decode_eq_ok_iff, encode]
    omega
  · have hok : effect (.inp m1) s = .ok ((s.consumeInput.writeCell d v).advance 2) :=
      inputInstr_eq_ok_iff.2 ⟨d, v, hd, hv, hf, rfl⟩
    rw [exec_eq_settle, hok]
    rfl
  · exact settle_error_eq (c := badAddress x) (inputInstr_eq_error_iff.2 (.inl ⟨x, hx, rfl⟩))
  · exact settle_error_eq (inputInstr_eq_error_iff.2 (.inr ⟨d, hd, .inl ⟨hnone, rfl⟩⟩))
  · exact settle_error_eq (inputInstr_eq_error_iff.2 (.inr ⟨d, hd, .inr ⟨v, hv, hf, rfl⟩⟩))

/-- Settles O14: the state is the one with the destination cell written and the value consumed, or the one with the
fault taken. -/
theorem inWritesOneCell : Obligations.InWritesOneCell := by
  intro m1 s t h
  obtain hok | ⟨c, -, rfl⟩ := exec_cases h
  · obtain ⟨d, v, hd, -, -, rfl⟩ := inputInstr_eq_ok_iff.1 hok
    refine ⟨rfl, rfl, Memory.write_size s.mem d v, fun d' hd' x hx => ?_,
      .inl ⟨rfl, rfl, rfl, rfl, d, destAddress_eq_ok_iff.2 hd⟩⟩
    obtain rfl := destIs_unique hd (destAddress_eq_ok_iff.1 hd')
    exact Memory.read_write_other s.mem v hx
  · exact ⟨rfl, rfl, rfl, fun _ _ _ _ => rfl, .inr ⟨rfl, rfl, rfl, fun _ => rfl⟩⟩

/-- Settles O15: HLT halts; OUT completes with one value emitted, or takes a fault. -/
theorem outAndHltWriteNoCell : Obligations.OutAndHltWriteNoCell := by
  rintro i s t (rfl | ⟨m1, rfl⟩) h
  · cases h
    exact ⟨fun _ => rfl, rfl, rfl, rfl, fun _ => ⟨rfl, rfl⟩, fun hne => absurd rfl hne⟩
  · obtain hok | ⟨c, -, rfl⟩ := exec_cases h
    · obtain ⟨v, -, rfl⟩ := outputInstr_eq_ok_iff.1 hok
      exact ⟨fun _ => rfl, rfl, rfl, rfl, fun hhlt => (nomatch hhlt), fun _ => .inl ⟨rfl, rfl, v, rfl⟩⟩
    · exact ⟨fun _ => rfl, rfl, rfl, rfl, fun hhlt => (nomatch hhlt), fun _ => .inr ⟨rfl, rfl, rfl⟩⟩

end Sys2Proof.Proofs
end

section
/-!
SUPPORT. The step answers a next state, it leaves a terminal state as it is, and what it raises.
-/
namespace Sys2Proof.Machine

theorem exists_settle_eq_next (s : State) (r : Except Cause State) : ∃ t, settle s r = .next t := by
  cases r <;> exact ⟨_, rfl⟩

theorem exists_step_eq_next (s : State) : ∃ t, step s = .next t := by
  unfold step
  split
  · split
    · exact exists_settle_eq_next s _
    · rw [exec_eq_settle]
      exact exists_settle_eq_next s _
  · exact ⟨s, rfl⟩
  · exact ⟨s, rfl⟩

/-- A step in a terminal state answers that state (42_control.md R96, decision D24). -/
theorem step_of_terminal {s : State} (hs : s.status ≠ .running) : step s = .next s := by
  obtain ⟨t, ht⟩ := exists_step_eq_next s
  rw [ht, step_terminal_eq hs ht]

theorem core_run_succ {s t : State} (n : Nat) (h : step s = .next t) : core.run (n + 1) s = core.run n t := by
  simp only [Host.Core.run, show core.step s = .next t from h]

/-- Any number of steps in a terminal state answers that state. -/
theorem core_run_of_terminal {s : State} (hs : s.status ≠ .running) (n : Nat) : core.run n s = .next s := by
  induction n with
  | zero => rfl
  | succ n ih => rw [core_run_succ n (step_of_terminal hs), ih]

/-- The causes an instruction raises, each with the condition it reports (60_exceptions.md R103 to R105). -/
theorem effect_error_cases {i : Instr} {s : State} {c : Cause} (h : effect i s = .error c) :
    (∃ x, c = badAddress x) ∨
    (∃ v, fitsCell s.params.width v = false ∧ c = { kind := .arithmeticOverflow, value := v, slot := none }) ∨
    (inputAt s.params.input s.inPos = none ∧ c = { kind := .inputExhausted, value := s.inPos, slot := none }) := by
  have halu : ∀ {op m1 m2}, aluInstr op m1 m2 s = .error c → (∃ x, c = badAddress x) ∨
      ∃ v, fitsCell s.params.width v = false ∧ c = { kind := .arithmeticOverflow, value := v, slot := none } := by
    intro op m1 m2 h
    obtain ⟨x, -, hc⟩ | ⟨a, -, ⟨x, -, hc⟩ | ⟨b, -, ⟨x, -, hc⟩ | ⟨d, -, hf, hc⟩⟩⟩ := aluInstr_eq_error_iff.1 h
    · exact .inl ⟨x, hc⟩
    · exact .inl ⟨x, hc⟩
    · exact .inl ⟨x, hc⟩
    · exact .inr ⟨_, hf, hc⟩
  cases i with
  | add m1 m2 m3 => exact (halu h).imp_right .inl
  | mul m1 m2 m3 => exact (halu h).imp_right .inl
  | inp m1 =>
    obtain ⟨x, -, hc⟩ | ⟨d, -, hnone | ⟨v, -, hf, hc⟩⟩ := inputInstr_eq_error_iff.1 h
    · exact .inl ⟨x, hc⟩
    · exact .inr (.inr hnone)
    · exact .inr (.inl ⟨v, hf, hc⟩)
  | out m1 =>
    obtain ⟨x, -, hc⟩ := outputInstr_eq_error_iff.1 h
    exact .inl ⟨x, hc⟩
  | hlt => cases h

/-- A step from `Running` that ends `Faulted` takes a fault of the fetch or of the instruction at `PC`. -/
theorem step_faulted_cases {s t : State} (hs : s.status = .running) (h : step s = .next t) (ht : t.status = .faulted) :
    ∃ c, t = s.raise c ∧ (fetchInstr s = .error c ∨ ∃ i, AtInstr s i ∧ effect i s = .error c) := by
  obtain ⟨hn, -⟩ | ⟨-, c, hc, rfl⟩ | ⟨-, i, hi, he⟩ := step_cases h
  · exact absurd hs hn
  · exact ⟨c, rfl, .inl hc⟩
  · obtain hok | ⟨c, hc, rfl⟩ := exec_cases he
    · rw [completed_status hs hok] at ht
      split at ht <;> cases ht
    · exact ⟨c, rfl, .inr ⟨i, hi, hc⟩⟩

/-- The fetch raises what it meets at `PC`, neither an overflow nor an exhausted input. -/
theorem fetchInstr_error_kind {s : State} {c : Cause} (h : fetchInstr s = .error c) :
    c.kind ≠ .arithmeticOverflow ∧ c.kind ≠ .inputExhausted := by
  obtain ⟨-, rfl⟩ | ⟨w, e, -, -, rfl⟩ := fetchInstr_eq_error_iff.1 h
  · simp [badAddress]
  · cases e <;> simp [decodeCause]

end Sys2Proof.Machine
end

section
/-!
SUPPORT. The proofs of the statements about a step and its faults (42_control.md section 3, 60_exceptions.md).
-/
namespace Sys2Proof.Proofs

open Machine

/-- Settles O12: HLT has the one word 99, and the state it leaves is terminal. -/
theorem hltStopsTheLoop : Obligations.HltStopsTheLoop :=
  ⟨fun _ => decode_eq_ok_iff, fun _ => ⟨rfl, core_run_of_terminal (by simp)⟩⟩

/-- Settles O16: the fetch answers the instruction the word decodes to. -/
theorem stepRunsTheDecodedInstruction : Obligations.StepRunsTheDecodedInstruction :=
  fun _ w _ hs hw hd => step_eq_exec hs ⟨w, hw, hd⟩

/-- Settles O17: every branch of the step settles or is idle. -/
theorem stepAlwaysAnswersANextState : Obligations.StepAlwaysAnswersANextState :=
  exists_step_eq_next

/-- Settles O19: a step that ends `Faulted` has raised a cause. -/
theorem faultsArePrecise : Obligations.FaultsArePrecise := by
  intro s t hs h ht
  obtain ⟨c, ⟨hkind, hslot⟩, rfl⟩ := (step_faulted_iff hs h).1 ht
  exact ⟨c.kind, c.value, c.slot, rfl, hkind, hslot⟩

/-- Settles O21: a terminal state is left as it is by each step. -/
theorem terminalStatesExecuteNothing : Obligations.TerminalStatesExecuteNothing :=
  fun _ hs n => core_run_of_terminal hs n

theorem width_ne_none_of_fitsCell_eq_false {width : Option Nat} {v : Int} (h : fitsCell width v = false) :
    width ≠ none := by
  rintro rfl
  cases h

/-- Settles O23: an instruction alone raises the two kinds, each under the condition it reports. -/
theorem overflowAndExhaustionNeedTheirParameter : Obligations.OverflowAndExhaustionNeedTheirParameter := by
  intro s t r hs h ht hr
  obtain ⟨c, rfl, hfetch | ⟨i, -, heffect⟩⟩ := step_faulted_cases hs h ht
  · obtain ⟨hover, hexh⟩ := fetchInstr_error_kind hfetch
    cases hr
    exact ⟨fun hk => absurd hk hover, fun hk => absurd hk hexh⟩
  · obtain ⟨x, rfl⟩ | ⟨v, hf, rfl⟩ | ⟨hnone, rfl⟩ := effect_error_cases heffect
    · cases hr
      exact ⟨fun hk => (nomatch hk), fun hk => (nomatch hk)⟩
    · cases hr
      exact ⟨fun _ => ⟨width_ne_none_of_fitsCell_eq_false hf, hf⟩, fun hk => (nomatch hk)⟩
    · cases hr
      obtain ⟨n, hn, hle⟩ := inputAt_eq_none_iff.1 hnone
      exact ⟨fun hk => (nomatch hk), fun _ => ⟨n, hn, hle, rfl⟩⟩

/-- Settles O34: only an instruction that completes writes a cell, and it is its destination. -/
theorem stepsWriteOnlyTheDestination : Obligations.StepsWriteOnlyTheDestination := by
  intro s t h
  by_cases hs : s.status = .running
  · obtain ⟨c, -, rfl⟩ | ⟨i, hi, hok⟩ := step_running_cases hs h
    · exact ⟨rfl, rfl, fun x hx => absurd rfl hx⟩
    · refine ⟨effect_ok_params hok, effect_ok_keys hok, fun x hx => ⟨hs, ?_⟩⟩
      obtain hmem | ⟨k, d, v, hslot, hd, -, hmem⟩ := effect_ok_mem hok
      · exact absurd (by rw [hmem]) hx
      · obtain rfl : x = d := by
          by_contra hne
          exact hx (by rw [hmem, Memory.read_write_other _ _ hne])
        obtain ⟨⟨m1, m2, m3, rfl | rfl⟩, rfl⟩ | ⟨⟨m1, rfl⟩, rfl⟩ := hslot
        · exact .inl ⟨m1, m2, m3, .inl hi, hd⟩
        · exact .inl ⟨m1, m2, m3, .inr hi, hd⟩
        · exact .inr ⟨m1, hi, hd⟩
  · obtain rfl := step_terminal_eq hs h
    exact ⟨rfl, rfl, fun x hx => absurd rfl hx⟩

/-- Settles O35: a fault moves neither channel, and an instruction that completes moves its own. -/
theorem channelsMoveOnlyByTheirInstruction : Obligations.ChannelsMoveOnlyByTheirInstruction := by
  intro s t hs h
  obtain ⟨c, -, rfl⟩ | ⟨i, hi, hok⟩ := step_running_cases hs h
  · exact ⟨fun _ _ hnf => absurd rfl hnf, fun _ => rfl, fun _ _ hnf => absurd rfl hnf, fun _ => rfl⟩
  · have hnf : t.status ≠ .faulted := by
      rw [completed_status hs hok]
      split <;> decide
    refine ⟨fun m1 hout _ => ?_, fun hout => ?_, fun m1 hinp _ => ?_, fun hinp => ?_⟩
    · obtain rfl := atInstr_unique hi hout
      obtain ⟨v, hv, rfl⟩ := outputInstr_eq_ok_iff.1 hok
      exact ⟨v, hv, rfl⟩
    · exact effect_ok_outLog hok fun m1 heq => hnf (hout m1 (heq ▸ hi))
    · obtain rfl := atInstr_unique hi hinp
      obtain ⟨d, v, -, -, -, rfl⟩ := inputInstr_eq_ok_iff.1 hok
      rfl
    · exact effect_ok_inPos hok fun m1 heq => hnf (hinp m1 (heq ▸ hi))

end Sys2Proof.Proofs
end

section
/-!
SUPPORT. The loader's trimming and splitting against the grammar of 70_reset_and_hazards.md R125, and the decimal text
of an image.
-/
namespace Sys2Proof.Machine

/-- The space before a text without space is what `dropWhile` drops. -/
theorem dropWhile_isSpaceChar_append {before core after : List Char} (hbefore : ∀ c ∈ before, IsSpace c)
    (hne : core ≠ []) (hcore : ∀ c ∈ core, ¬ IsSpace c) :
    (before ++ (core ++ after)).dropWhile isSpaceChar = core ++ after := by
  rw [List.dropWhile_append_of_pos fun c hc => (isSpaceChar_iff c).2 (hbefore c hc)]
  obtain ⟨c, cs, rfl⟩ := List.exists_cons_of_ne_nil hne
  exact List.dropWhile_cons_of_neg fun hc => hcore c (by simp) ((isSpaceChar_iff c).1 hc)

/-- Trimming takes off the space at both ends of a text without space (R125). -/
theorem trimText_append {before core after : List Char} (hbefore : ∀ c ∈ before, IsSpace c)
    (hafter : ∀ c ∈ after, IsSpace c) (hne : core ≠ []) (hcore : ∀ c ∈ core, ¬ IsSpace c) :
    trimText (before ++ core ++ after) = core := by
  have hright : (after.reverse ++ (core.reverse ++ [])).dropWhile isSpaceChar = core.reverse ++ [] :=
    dropWhile_isSpaceChar_append (by simpa using hafter) (by simpa using hne) (by simpa using hcore)
  rw [List.append_nil] at hright
  rw [trimText, List.append_assoc, dropWhile_isSpaceChar_append hbefore hne hcore, List.reverse_append, hright,
    List.reverse_reverse]

/-- What trimming takes off is space. -/
theorem exists_eq_append_trimText (t : List Char) : ∃ before after, (∀ c ∈ before, IsSpace c) ∧
    (∀ c ∈ after, IsSpace c) ∧ t = before ++ trimText t ++ after := by
  refine ⟨t.takeWhile isSpaceChar, ((t.dropWhile isSpaceChar).reverse.takeWhile isSpaceChar).reverse,
    fun c hc => (isSpaceChar_iff c).1 (List.mem_takeWhile_imp hc),
    fun c hc => (isSpaceChar_iff c).1 (List.mem_takeWhile_imp (List.mem_reverse.1 hc)), ?_⟩
  rw [trimText, List.append_assoc, ← List.reverse_append, List.takeWhile_append_dropWhile, List.reverse_reverse,
    List.takeWhile_append_dropWhile]

/-- The parts between the commas, with the commas, make up the text. -/
theorem intercalate_splitCommas (t : List Char) : List.intercalate [','] (splitCommas t) = t := by
  induction t with
  | nil => rfl
  | cons c cs ih =>
    obtain ⟨p, ps, hsplit⟩ := List.exists_cons_of_ne_nil (splitCommas_ne_nil cs)
    rw [hsplit] at ih
    simp only [splitCommas, hsplit]
    split
    next hc => rw [List.intercalate_cons_cons, ih, hc]; rfl
    next hc =>
      rw [← ih]
      cases ps <;> simp

/-- Parts without a comma, joined by commas, are the parts between the commas. -/
theorem splitCommas_intercalate {elements : List (List Char)} (hne : elements ≠ [])
    (hcomma : ∀ e ∈ elements, ∀ c ∈ e, c ≠ ',') : splitCommas (List.intercalate [','] elements) = elements := by
  induction elements with
  | nil => exact absurd rfl hne
  | cons e es ih =>
    have he := hcomma e (by simp)
    by_cases hes : es = []
    · rw [hes, List.intercalate_singleton, splitCommas_of_no_comma he]
    · rw [List.intercalate_cons_of_ne_nil hes, List.append_assoc, List.singleton_append, splitCommas_append he,
        ih hes fun e' he' => hcomma e' (by simp [he'])]

theorem not_isDigit_minus : ¬ IsDigit '-' := by
  unfold IsDigit
  decide

/-- The characters of an element are digits, or the sign. -/
theorem isDigit_or_minus_of_isElement {e : List Char} {v : Int} (h : IsElement e v) {c : Char} (hc : c ∈ e) :
    IsDigit c ∨ c = '-' := by
  obtain ⟨ds, -, hds, ⟨rfl, -⟩ | ⟨rfl, -⟩⟩ := h
  · exact .inl (hds c hc)
  · obtain rfl | hc := List.mem_cons.1 hc
    · exact .inr rfl
    · exact .inl (hds c hc)

/-- The comma and the four characters of space stand in no element (R125). -/
theorem not_mem_of_isElement {e : List Char} {v : Int} (h : IsElement e v) {c : Char}
    (hc : c ∈ [',', ' ', '\t', '\r', '\n']) : c ∉ e := by
  have hall : ∀ c ∈ [',', ' ', '\t', '\r', '\n'], ¬ ('0' ≤ c ∧ c ≤ '9') ∧ c ≠ '-' := by
    simp
  obtain ⟨hdigit, hminus⟩ := hall c hc
  exact fun hce => (isDigit_or_minus_of_isElement h hce).elim hdigit hminus

theorem ne_comma_of_isElement {e : List Char} {v : Int} (h : IsElement e v) {c : Char} (hc : c ∈ e) : c ≠ ',' := by
  rintro rfl
  exact not_mem_of_isElement h (by simp) hc

theorem not_isSpace_of_isElement {e : List Char} {v : Int} (h : IsElement e v) {c : Char} (hc : c ∈ e) :
    ¬ IsSpace c :=
  fun hspace => not_mem_of_isElement h (List.mem_cons_of_mem ',' hspace) hc

theorem ne_nil_of_isElement {e : List Char} {v : Int} (h : IsElement e v) : e ≠ [] := by
  obtain ⟨ds, hne, -, ⟨rfl, -⟩ | ⟨rfl, -⟩⟩ := h
  · exact hne
  · exact List.cons_ne_nil _ _

/-- `"-"? digit+` (R125) with its value (R126). -/
theorem elementText_eq_some_iff {e : List Char} {v : Int} : elementText e = some v ↔ IsElement e v := by
  unfold elementText IsElement
  split
  next ds =>
    simp only [Option.map_eq_some_iff, natText_eq_some_iff]
    constructor
    · rintro ⟨n, ⟨hne, hds, rfl⟩, rfl⟩
      exact ⟨ds, hne, hds, .inr ⟨rfl, rfl⟩⟩
    · rintro ⟨ds', hne, hds, ⟨rfl, -⟩ | ⟨heq, rfl⟩⟩
      · exact absurd (hds '-' (by simp)) not_isDigit_minus
      · cases heq
        exact ⟨_, ⟨hne, hds, rfl⟩, rfl⟩
  next hminus =>
    simp only [Option.map_eq_some_iff, natText_eq_some_iff]
    constructor
    · rintro ⟨n, ⟨hne, hds, rfl⟩, rfl⟩
      exact ⟨e, hne, hds, .inl ⟨rfl, rfl⟩⟩
    · rintro ⟨ds, hne, hds, ⟨rfl, rfl⟩ | ⟨heq, -⟩⟩
      · exact ⟨_, ⟨hne, hds, rfl⟩, rfl⟩
      · exact absurd heq (hminus ds)

theorem elementsText_eq_some_iff {elements : List (List Char)} {image : List Int} :
    elementsText elements = some image ↔ List.Forall₂ IsElement elements image := by
  induction elements generalizing image with
  | nil => simp [elementsText, eq_comm]
  | cons e es ih =>
    rw [elementsText, List.forall₂_cons_left_iff]
    constructor
    · intro h
      split at h
      next v vs hv hvs =>
        cases h
        exact ⟨v, vs, elementText_eq_some_iff.1 hv, ih.1 hvs, rfl⟩
      next => cases h
    · rintro ⟨v, vs, hv, hvs, rfl⟩
      rw [elementText_eq_some_iff.2 hv, ih.2 hvs]

/-- A character of joined elements is the comma or stands in one of them. -/
theorem mem_intercalate_comma {elements : List (List Char)} {c : Char} (h : c ∈ List.intercalate [','] elements) :
    c = ',' ∨ ∃ e ∈ elements, c ∈ e := by
  induction elements with
  | nil => cases h
  | cons e es ih =>
    by_cases hes : es = []
    · rw [hes, List.intercalate_singleton] at h
      exact .inr ⟨e, by simp, h⟩
    · rw [List.intercalate_cons_of_ne_nil hes, List.mem_append, List.mem_append, List.mem_singleton] at h
      obtain (he | hcomma) | hrest := h
      · exact .inr ⟨e, by simp, he⟩
      · exact .inl hcomma
      · obtain hcomma | ⟨e', he', hc⟩ := ih hrest
        · exact .inl hcomma
        · exact .inr ⟨e', by simp [he'], hc⟩

theorem exists_isElement_of_forall₂ {elements : List (List Char)} {image : List Int}
    (h : List.Forall₂ IsElement elements image) {e : List Char} (he : e ∈ elements) : ∃ v, IsElement e v := by
  induction h with
  | nil => cases he
  | cons hv _ ih =>
    obtain rfl | he := List.mem_cons.1 he
    · exact ⟨_, hv⟩
    · exact ih he

/-- The trimmed text of a list of elements is the list (R125). -/
theorem trimText_programText {before after : List Char} {elements : List (List Char)} {image : List Int}
    (hbefore : ∀ c ∈ before, IsSpace c) (hafter : ∀ c ∈ after, IsSpace c) (hne : elements ≠ [])
    (helements : List.Forall₂ IsElement elements image) :
    trimText (before ++ List.intercalate [','] elements ++ after) = List.intercalate [','] elements := by
  refine trimText_append hbefore hafter ?_ fun c hc => ?_
  · obtain ⟨e, es, rfl⟩ := List.exists_cons_of_ne_nil hne
    obtain ⟨v, hv⟩ := exists_isElement_of_forall₂ helements (e := e) (by simp)
    have hcons := ne_nil_of_isElement hv
    cases es <;> simp [hcons]
  · obtain rfl | ⟨e, he, hce⟩ := mem_intercalate_comma hc
    · simp [IsSpace]
    · obtain ⟨v, hv⟩ := exists_isElement_of_forall₂ helements he
      exact not_isSpace_of_isElement hv hce

theorem parseText_eq_some_iff {text : List Char} {image : List Int} :
    parseText text = some image ↔ IsProgramText text image := by
  constructor
  · intro h
    obtain ⟨before, after, hbefore, hafter, htext⟩ := exists_eq_append_trimText text
    refine ⟨before, after, splitCommas (trimText text), hbefore, hafter, splitCommas_ne_nil _,
      elementsText_eq_some_iff.1 h, ?_⟩
    rw [intercalate_splitCommas]
    exact htext
  · rintro ⟨before, after, elements, hbefore, hafter, hne, helements, rfl⟩
    have hcomma : ∀ e ∈ elements, ∀ c ∈ e, c ≠ ',' := fun e he c hc => by
      obtain ⟨v, hv⟩ := exists_isElement_of_forall₂ helements he
      exact ne_comma_of_isElement hv hc
    rw [parseText, trimText_programText hbefore hafter hne helements, splitCommas_intercalate hne hcomma]
    exact elementsText_eq_some_iff.2 helements

theorem ofDigits_decimalDigits {fuel n : Nat} (h : n ≤ fuel) : Nat.ofDigits 10 (decimalDigits fuel n) = n := by
  induction fuel generalizing n with
  | zero =>
    obtain rfl : n = 0 := by omega
    rfl
  | succ fuel ih =>
    unfold decimalDigits
    split
    next hn => rw [hn]; rfl
    next hn =>
      rw [Nat.ofDigits_cons, ih (by omega)]
      exact Nat.mod_add_div n 10

theorem lt_ten_of_mem_decimalDigits {fuel n d : Nat} (h : d ∈ decimalDigits fuel n) : d < 10 := by
  induction fuel generalizing n with
  | zero => cases h
  | succ fuel ih =>
    unfold decimalDigits at h
    split at h
    next => cases h
    next =>
      obtain rfl | h := List.mem_cons.1 h
      · exact Nat.mod_lt _ (by decide)
      · exact ih h

/-- The character of a decimal digit. -/
def digitChar (d : Nat) : Char := Char.ofNat ('0'.toNat + d)

theorem isDigit_digitChar {d : Nat} (h : d < 10) : IsDigit (digitChar d) := by
  have hall : ∀ d < 10, '0' ≤ digitChar d ∧ digitChar d ≤ '9' := by decide
  exact hall d h

theorem toNat_digitChar {d : Nat} (h : d < 10) : (digitChar d).toNat - 48 = d := by
  have hall : ∀ d < 10, (digitChar d).toNat - 48 = d := by decide
  exact hall d h

theorem digitsNumber_digitChars {ds : List Nat} (h : ∀ d ∈ ds, d < 10) :
    digitsNumber (ds.reverse.map digitChar) = Nat.ofDigits 10 ds := by
  induction ds with
  | nil => rfl
  | cons d ds ih =>
    have ih := ih fun d' hd' => h d' (by simp [hd'])
    rw [digitsNumber] at ih ⊢
    rw [List.reverse_cons, List.map_append, List.foldl_append, ih, List.map_singleton, List.foldl_cons, List.foldl_nil,
      toNat_digitChar (h d (by simp)), Nat.ofDigits_cons]
    exact Nat.add_comm _ _

theorem decimalDigits_ne_nil {n : Nat} (h : n ≠ 0) : decimalDigits n n ≠ [] := by
  obtain ⟨m, rfl⟩ := Nat.exists_eq_succ_of_ne_zero h
  simp [decimalDigits]

/-- The decimal text of a number spells it, in at least one digit. -/
theorem natChars_spells (n : Nat) :
    natChars n ≠ [] ∧ (∀ c ∈ natChars n, IsDigit c) ∧ digitsNumber (natChars n) = n := by
  by_cases hn : n = 0
  · subst hn
    exact ⟨by decide, by simpa [natChars] using show IsDigit '0' from isDigit_digitChar (d := 0) (by decide), by decide⟩
  · have hchars : natChars n = (decimalDigits n n).reverse.map digitChar := if_neg hn
    rw [hchars, digitsNumber_digitChars fun d => lt_ten_of_mem_decimalDigits, ofDigits_decimalDigits le_rfl]
    refine ⟨by simpa using decimalDigits_ne_nil hn, fun c hc => ?_, rfl⟩
    obtain ⟨d, hd, rfl⟩ := List.mem_map.1 hc
    exact isDigit_digitChar (lt_ten_of_mem_decimalDigits (List.mem_reverse.1 hd))

theorem isElement_intChars (v : Int) : IsElement (intChars v) v := by
  obtain ⟨hne, hdigits, hnumber⟩ := natChars_spells v.natAbs
  refine ⟨natChars v.natAbs, hne, hdigits, ?_⟩
  rw [hnumber]
  unfold intChars
  split
  next hv => exact .inr ⟨rfl, by omega⟩
  next hv => exact .inl ⟨rfl, by omega⟩

theorem imageText_eq_intercalate (image : List Int) :
    imageText image = List.intercalate [','] (image.map intChars) := by
  induction image with
  | nil => rfl
  | cons v vs ih =>
    cases vs with
    | nil => simp [imageText]
    | cons v' vs =>
      rw [imageText, ih]
      · simp
      · simp

theorem isProgramText_imageText {image : List Int} (h : image ≠ []) : IsProgramText (imageText image) image := by
  refine ⟨[], [], image.map intChars, by simp, by simp, by simpa using h, ?_, ?_⟩
  · rw [List.forall₂_map_left_iff, List.forall₂_same]
    exact fun v _ => isElement_intChars v
  · rw [imageText_eq_intercalate, List.nil_append, List.append_nil]

end Sys2Proof.Machine
end

section
/-!
SUPPORT. What a load leaves, and memory as the host reads it.
-/
namespace Sys2Proof.Machine

theorem inv_loadFailed (p : Params) : Inv (State.loadFailed p) := by
  refine ⟨Memory.wf_nil, le_rfl, iff_of_true rfl rfl, fun r hr => ?_, fun r hr => ?_, by simp [State.loadFailed],
    fun n _ => Nat.zero_le n⟩
  · cases hr
    rfl
  · cases hr
    decide

theorem inv_loaded {p : Params} {image : List Int} (hfit : ∀ v ∈ image, fitsCell p.width v = true) :
    Inv (State.loaded p image) := by
  refine ⟨Memory.wf_ofList image, Nat.zero_le _, iff_of_false (by simp [State.loaded]) (by simp [State.loaded]),
    fun r hr => (nomatch hr), fun r hr => (nomatch hr), fun x hx => hfit x.2 ?_, fun n _ => Nat.zero_le n⟩
  obtain ⟨y, hy, rfl⟩ := List.mem_map.1 hx
  exact List.fst_mem_of_mem_zipIdx hy

theorem inv_loadImage (p : Params) (image : List Int) : Inv (State.loadImage p image) := by
  unfold State.loadImage
  split
  next hloads =>
    rw [imageLoads, Bool.and_eq_true, List.all_eq_true] at hloads
    obtain ⟨-, hfit⟩ := hloads
    exact inv_loaded hfit
  next => exact inv_loadFailed p

theorem inv_loadText (p : Params) (text : List Char) : Inv (State.loadText p text) := by
  unfold State.loadText
  split
  · exact inv_loadImage p _
  · exact inv_loadFailed p

theorem loadImage_eq_loadFailed {p : Params} {image : List Int} {v : Int} (hv : v ∈ image)
    (hfit : fitsCell p.width v = false) : State.loadImage p image = State.loadFailed p := by
  refine if_neg fun hloads => ?_
  rw [imageLoads, Bool.and_eq_true, List.all_eq_true] at hloads
  obtain ⟨-, hall⟩ := hloads
  rw [hall v hv] at hfit
  cases hfit

/-- A memory in canonical form is the memory of its values (10_state.md R23). -/
theorem Memory.wf.ofList_values {m : Memory} (h : m.wf) : Memory.ofList (m.map Prod.snd) = m := by
  refine List.ext_getElem (by simp [Memory.ofList]) fun i _ hi => ?_
  have hkey : (m.map Prod.fst)[i]? = (List.range m.length)[i]? := by rw [h]
  have hfst : m[i].1 = i := by simpa [hi] using hkey
  simp [Memory.ofList, Prod.ext_iff, hfst]

/-- Value `i` of a memory in canonical form is that of the cell `i`. -/
theorem Memory.wf.values_getElem? {m : Memory} (h : m.wf) (i : Nat) : (m.map Prod.snd)[i]? = m.read i := by
  rw [← Memory.read_ofList, h.ofList_values]

end Sys2Proof.Machine
end

section
/-!
SUPPORT. The proofs of the statements about reset, loading and the host's reading (10_state.md section 6,
70_reset_and_hazards.md).
-/
namespace Sys2Proof.Proofs

open Machine

/-- Settles O24: the fields of the reset state. -/
theorem resetLeavesTheStatedValues : Obligations.ResetLeavesTheStatedValues :=
  ⟨rfl, rfl, rfl, rfl, rfl, rfl, fun _ => rfl, fun _ => rfl⟩

/-- Settles O26: both causes end in the failed load. -/
theorem failedLoadIsAParseError : Obligations.FailedLoadIsAParseError := by
  rintro p text (hparse | ⟨image, v, hparse, hv, hfit⟩)
  · simp only [State.loadText, hparse]
    rfl
  · simp only [State.loadText, hparse, loadImage_eq_loadFailed hv hfit]
    rfl

/-- Settles O27: trimming, splitting and reading the elements each invert their part of the grammar. -/
theorem loaderAcceptsExactlyTheGrammar : Obligations.LoaderAcceptsExactlyTheGrammar :=
  fun _ _ => parseText_eq_some_iff

/-- Settles O28: the text of an image is in the grammar, with that image. -/
theorem programTextRoundTrip : Obligations.ProgramTextRoundTrip :=
  fun _ hne => parseText_eq_some_iff.2 (isProgramText_imageText hne)

/-- Settles O30: the listed values are those of the cells in order. -/
theorem hostReadsEveryCell : Obligations.HostReadsEveryCell :=
  fun _ hwf => ⟨hwf.values_getElem?, List.length_map _, rfl, rfl, rfl, rfl⟩

/-- Settles O31: at reset there is no cell, no fault and no input consumed. -/
theorem resetMeetsTheInvariant : Obligations.ResetMeetsTheInvariant :=
  inv_loaded (p := Params.standard) (image := []) (by simp)

/-- Settles O32: a load leaves the loaded state or the failed one. -/
theorem loadMeetsTheInvariant : Obligations.LoadMeetsTheInvariant :=
  ⟨inv_loadImage, inv_loadText⟩

end Sys2Proof.Proofs
end

section
/-!
SUPPORT. Runs: how many steps lead to the first terminal state, and what holds along them (42_control.md section 3).
-/
namespace Sys2Proof.Machine

/-- `Run()` stops asking at the end of a run, and a step asked for after it changes nothing (decision D24). -/
theorem runFor_eq_core_run (n : Nat) (s : State) : runFor n s = core.run n s := by
  induction n generalizing s with
  | zero => rfl
  | succ n ih =>
    by_cases hs : s.status = .running
    · obtain ⟨t, ht⟩ := exists_step_eq_next s
      rw [core_run_succ n ht]
      simp only [runFor, hs, ht]
      exact ih t
    · rw [core_run_of_terminal hs, runFor]
      cases hst : s.status with
      | running => exact absurd hst hs
      | halted => rfl
      | faulted => rfl

/-- The last of several steps is a step. -/
theorem core_run_succ_last {n : Nat} {s u : State} (h : core.run n s = .next u) : core.run (n + 1) s = step u := by
  induction n generalizing s with
  | zero =>
    obtain ⟨t, ht⟩ := exists_step_eq_next s
    cases h
    exact (core_run_succ 0 ht).trans ht.symm
  | succ n ih =>
    obtain ⟨t, ht⟩ := exists_step_eq_next s
    rw [core_run_succ n ht] at h
    rw [core_run_succ (n + 1) ht, ih h]

/-- What a step keeps holds along a run. -/
theorem core_run_keeps {P : State → Prop} (hstep : ∀ {s t}, P s → step s = .next t → P t) {n : Nat} {s u : State}
    (hs : P s) (h : core.run n s = .next u) : P u := by
  induction n generalizing s with
  | zero =>
    cases h
    exact hs
  | succ n ih =>
    obtain ⟨t, ht⟩ := exists_step_eq_next s
    exact ih (hstep hs ht) (core_run_succ n ht ▸ h)

/-- A run that has ended stays where it is. -/
theorem core_run_of_le {k n : Nat} {s t : State} (h : core.run k s = .next t) (ht : t.status ≠ .running) (hkn : k ≤ n) :
    core.run n s = .next t := by
  induction n, hkn using Nat.le_induction with
  | base => exact h
  | succ n _ ih => exact (core_run_succ_last ih).trans (step_of_terminal ht)

/-- The state after `k` steps is the first terminal one on the run from `s`. -/
def EndsAfter (s : State) (k : Nat) (t : State) : Prop :=
  core.run k s = .next t ∧ t.status ≠ .running ∧ ∀ j, j < k → ∃ u, core.run j s = .next u ∧ u.status = .running

theorem EndsAfter.of_terminal {s : State} (hs : s.status ≠ .running) : EndsAfter s 0 s :=
  ⟨rfl, hs, fun j hj => absurd hj (Nat.not_lt_zero j)⟩

theorem EndsAfter.of_step {s s' t : State} {k : Nat} (hs : s.status = .running) (hstep : step s = .next s')
    (h : EndsAfter s' k t) : EndsAfter s (k + 1) t := by
  obtain ⟨hrun, hterminal, hearlier⟩ := h
  refine ⟨(core_run_succ k hstep).trans hrun, hterminal, fun j hj => ?_⟩
  cases j with
  | zero => exact ⟨s, rfl, hs⟩
  | succ j =>
    rw [core_run_succ j hstep]
    exact hearlier j (by omega)

/-- Each instruction but HLT is at least two cells long (30_encoding.md R51). -/
theorem two_le_arity {i : Instr} (h : i ≠ .hlt) : 2 ≤ i.arity := by
  cases i with
  | hlt => exact absurd rfl h
  | _ => simp [Instr.arity]

/-- A step that leaves the machine `Running` was fetched inside memory and goes on two cells or more
(42_control.md R97). -/
theorem step_running_progress {s t : State} (hwf : s.mem.wf) (hs : s.status = .running) (h : step s = .next t)
    (ht : t.status = .running) : s.pc < s.mem.size ∧ s.pc + 2 ≤ t.pc := by
  obtain ⟨i, ⟨w, hw, -⟩, hne, hpc⟩ := (step_running_iff hs h).1 ht
  have harity := two_le_arity hne
  exact ⟨hwf.lt_size_of_read hw, by omega⟩

/-- With at most `2 * m` cells from `PC` on, the run ends in at most `m + 1` steps: every step but the last goes on two
cells or more, and past the end of memory the fetch faults (R97). -/
theorem exists_endsAfter {s : State} (m : Nat) (hwf : s.mem.wf) (hm : s.mem.size ≤ s.pc + 2 * m) :
    ∃ k t, k ≤ m + 1 ∧ EndsAfter s k t := by
  induction m generalizing s with
  | zero =>
    by_cases hs : s.status = .running
    · obtain ⟨t, hstep⟩ := exists_step_eq_next s
      refine ⟨1, t, le_rfl, (EndsAfter.of_terminal fun ht => ?_).of_step hs hstep⟩
      obtain ⟨hpc, -⟩ := step_running_progress hwf hs hstep ht
      omega
    · exact ⟨0, s, Nat.zero_le _, .of_terminal hs⟩
  | succ m ih =>
    by_cases hs : s.status = .running
    · obtain ⟨s', hstep⟩ := exists_step_eq_next s
      by_cases hs' : s'.status = .running
      · obtain ⟨-, hpc⟩ := step_running_progress hwf hs hstep hs'
        have hsize := step_size hstep
        obtain ⟨k, t, hk, hend⟩ := ih (step_wf hwf hstep) (by omega)
        exact ⟨k + 1, t, by omega, hend.of_step hs hstep⟩
      · exact ⟨1, s', by omega, (EndsAfter.of_terminal hs').of_step hs hstep⟩
    · exact ⟨0, s, Nat.zero_le _, .of_terminal hs⟩

/-- Every run ends within the bound of R97. -/
theorem exists_endsAfter_runBound {s : State} (hwf : s.mem.wf) : ∃ k t, k ≤ runBound s ∧ EndsAfter s k t :=
  exists_endsAfter ((s.mem.size + 1) / 2) hwf (by omega)

/-- `Run()` answers the end of the run. -/
theorem EndsAfter.run_eq {s t : State} {k : Nat} (h : EndsAfter s k t) (hk : k ≤ runBound s) : run s = .next t := by
  obtain ⟨hrun, hterminal, -⟩ := h
  exact (runFor_eq_core_run _ s).trans (core_run_of_le hrun hterminal hk)

/-- Under the invariant a `Halted` state reached by a step from `Running` is a good end (42_control.md R98). -/
theorem goodEnd_of_step_halted {u t : State} (hinv : Inv t) (hu : u.status = .running) (h : step u = .next t)
    (ht : t.status = .halted) : GoodEnd t := by
  have hfault : t.fault = none := by
    rw [← Option.not_isSome_iff_eq_none, hinv.faultStatus, ht]
    decide
  have hat := (step_halted_iff hu h).1 ht
  rw [step_eq_exec hu hat] at h
  cases h
  obtain ⟨w, hw, hdecode⟩ := hat
  obtain rfl := eq_encode_of_decode_eq_ok hdecode
  exact ⟨rfl, hfault, u.pc, rfl, hw⟩

/-- Under the invariant a `Faulted` state is a bad end (42_control.md R98). -/
theorem badEnd_of_faulted {t : State} (hinv : Inv t) (ht : t.status = .faulted) : BadEnd t := by
  obtain ⟨r, hr⟩ := Option.isSome_iff_exists.1 (hinv.faultStatus.2 ht)
  exact ⟨ht, r, hr, hinv.faultPc r hr⟩

/-- A run from a `Running` state that meets the invariant ends well or badly: its last step halts or faults. -/
theorem EndsAfter.goodEnd_or_badEnd {s t : State} {k : Nat} (hinv : Inv s) (hs : s.status = .running)
    (h : EndsAfter s k t) : GoodEnd t ∨ BadEnd t := by
  obtain ⟨hrun, hterminal, hearlier⟩ := h
  have hinvt : Inv t := core_run_keeps inv_step hinv hrun
  cases ht : t.status with
  | running => exact absurd ht hterminal
  | faulted => exact .inr (badEnd_of_faulted hinvt ht)
  | halted =>
    cases k with
    | zero =>
      cases hrun
      exact absurd hs hterminal
    | succ k =>
      obtain ⟨u, hu, hrunning⟩ := hearlier k (Nat.lt_succ_self k)
      rw [core_run_succ_last hu] at hrun
      exact .inl (goodEnd_of_step_halted hinvt hrunning hrun ht)

end Sys2Proof.Machine
end

section
/-!
SUPPORT. The proofs of the statements about runs (42_control.md section 3).
-/
namespace Sys2Proof.Proofs

open Machine

/-- Settles O36: the run ends after some number of steps within the bound, and stays there. -/
theorem runRepeatsTheStep : Obligations.RunRepeatsTheStep := by
  refine ⟨runFor_eq_core_run, fun s hwf => ?_⟩
  obtain ⟨k, t, hk, hend⟩ := exists_endsAfter_runBound hwf
  have hanswer := hend.run_eq hk
  obtain ⟨hrun, hterminal, hearlier⟩ := hend
  exact ⟨k, t, hk, hanswer, hterminal, hrun, hearlier, fun n hn => core_run_of_le hrun hterminal hn⟩

/-- Settles O37: the run ends within the bound, and stays there. -/
theorem everyRunEndsWithinTheBound : Obligations.EveryRunEndsWithinTheBound := by
  intro s hwf n hn
  obtain ⟨k, t, hk, hrun, hterminal, -⟩ := exists_endsAfter_runBound hwf
  exact ⟨t, core_run_of_le hrun hterminal (hk.trans hn), hterminal⟩

/-- Settles O38: the last step of the run halts or faults, and the invariant holds after it. -/
theorem runsEndWellOrWithADiagnostic : Obligations.RunsEndWellOrWithADiagnostic := by
  intro s hinv hs
  obtain ⟨k, t, hk, hend⟩ := exists_endsAfter_runBound hinv.memForm
  exact ⟨t, hend.run_eq hk, hend.goodEnd_or_badEnd hinv hs⟩

end Sys2Proof.Proofs
end

section
/-!
SUPPORT. A machine altered in what an instruction does not look at steps as the machine itself: with values before its
`OUT_LOG`, with another `IN_POS` where the input has the same value, with a width that what fits still fits.
-/
namespace Sys2Proof.Machine

/-- The state with its width mapped by `g`, `IN_POS` `k` higher and the values `earlier` before its `OUT_LOG`. -/
def State.altered (g : Option Nat → Option Nat) (k : Nat) (earlier : List Int) (s : State) : State :=
  { s with inPos := s.inPos + k, outLog := earlier ++ s.outLog,
           params := { s.params with width := g s.params.width } }

section
variable {g : Option Nat → Option Nat} {k : Nat} {earlier : List Int} {s : State}

theorem aluInstr_altered_ok {op : Int → Int → Int} {m1 m2 : Mode} {t : State}
    (hfits : ∀ v, fitsCell s.params.width v = true → fitsCell (g s.params.width) v = true)
    (h : aluInstr op m1 m2 s = .ok t) : aluInstr op m1 m2 (s.altered g k earlier) = .ok (t.altered g k earlier) := by
  obtain ⟨a, b, d, ha, hb, hd, hf, rfl⟩ := aluInstr_eq_ok_iff.1 h
  exact aluInstr_eq_ok_iff.2 ⟨a, b, d, ha, hb, hd, hfits _ hf, rfl⟩

theorem aluInstr_altered_error {op : Int → Int → Int} {m1 m2 : Mode} {c : Cause}
    (hover : c.kind = .arithmeticOverflow →
      ∀ v, fitsCell s.params.width v = false → fitsCell (g s.params.width) v = false)
    (h : aluInstr op m1 m2 s = .error c) : aluInstr op m1 m2 (s.altered g k earlier) = .error c := by
  refine aluInstr_eq_error_iff.2 ?_
  obtain hx | ⟨a, ha, hx | ⟨b, hb, hx | ⟨d, hd, hf, rfl⟩⟩⟩ := aluInstr_eq_error_iff.1 h
  · exact .inl hx
  · exact .inr ⟨a, ha, .inl hx⟩
  · exact .inr ⟨a, ha, .inr ⟨b, hb, .inl hx⟩⟩
  · exact .inr ⟨a, ha, .inr ⟨b, hb, .inr ⟨d, hd, hover rfl _ hf, rfl⟩⟩⟩

/-- An instruction completes in the altered state as in the state itself. -/
theorem effect_altered_ok {i : Instr} {t : State}
    (hfits : ∀ v, fitsCell s.params.width v = true → fitsCell (g s.params.width) v = true)
    (hinput : ∀ v, inputAt s.params.input s.inPos = some v → inputAt s.params.input (s.inPos + k) = some v)
    (h : effect i s = .ok t) : effect i (s.altered g k earlier) = .ok (t.altered g k earlier) := by
  cases i with
  | add m1 m2 m3 => exact aluInstr_altered_ok hfits h
  | mul m1 m2 m3 => exact aluInstr_altered_ok hfits h
  | inp m1 =>
    obtain ⟨d, v, hd, hv, hf, rfl⟩ := inputInstr_eq_ok_iff.1 h
    refine inputInstr_eq_ok_iff.2 ⟨d, v, hd, hinput v hv, hfits v hf, ?_⟩
    simp [State.altered, State.consumeInput, State.writeCell, State.advance, Nat.add_right_comm]
  | out m1 =>
    obtain ⟨v, hv, rfl⟩ := outputInstr_eq_ok_iff.1 h
    refine outputInstr_eq_ok_iff.2 ⟨v, hv, ?_⟩
    simp [State.altered, State.emit, State.advance]
  | hlt =>
    cases h
    rfl

/-- An instruction faults in the altered state as in the state itself. -/
theorem effect_altered_error {i : Instr} {c : Cause}
    (hover : c.kind = .arithmeticOverflow →
      ∀ v, fitsCell s.params.width v = false → fitsCell (g s.params.width) v = false)
    (hinput : ∀ v, inputAt s.params.input s.inPos = some v → inputAt s.params.input (s.inPos + k) = some v)
    (hexhausted : inputAt s.params.input s.inPos = none → k = 0)
    (h : effect i s = .error c) : effect i (s.altered g k earlier) = .error c := by
  cases i with
  | add m1 m2 m3 => exact aluInstr_altered_error hover h
  | mul m1 m2 m3 => exact aluInstr_altered_error hover h
  | inp m1 =>
    refine inputInstr_eq_error_iff.2 ?_
    obtain hx | ⟨d, hd, ⟨hnone, rfl⟩ | ⟨v, hv, hf, rfl⟩⟩ := inputInstr_eq_error_iff.1 h
    · exact .inl hx
    · obtain rfl := hexhausted hnone
      exact .inr ⟨d, hd, .inl ⟨hnone, rfl⟩⟩
    · exact .inr ⟨d, hd, .inr ⟨v, hinput v hv, hover rfl v hf, rfl⟩⟩
  | out m1 =>
    obtain ⟨x, hx, rfl⟩ := outputInstr_eq_error_iff.1 h
    exact outputInstr_eq_error_iff.2 ⟨x, hx, rfl⟩
  | hlt => cases h

theorem step_eq_raise_of_fetch {c : Cause} (hs : s.status = .running) (h : fetchInstr s = .error c) :
    step s = .next (s.raise c) := by
  simp only [step, hs, h, settle]

/-- A step of the altered state is the altered step: what fits still fits, what overflows still does where the step
overflows, and the input has the same value. -/
theorem step_altered {t : State}
    (hfits : ∀ v, fitsCell s.params.width v = true → fitsCell (g s.params.width) v = true)
    (hover : ∀ r, t.fault = some r → r.kind = .arithmeticOverflow →
      ∀ v, fitsCell s.params.width v = false → fitsCell (g s.params.width) v = false)
    (hinput : ∀ v, inputAt s.params.input s.inPos = some v → inputAt s.params.input (s.inPos + k) = some v)
    (hexhausted : inputAt s.params.input s.inPos = none → k = 0)
    (h : step s = .next t) : step (s.altered g k earlier) = .next (t.altered g k earlier) := by
  obtain ⟨hn, rfl⟩ | ⟨hs, c, hc, rfl⟩ | ⟨hs, i, hi, he⟩ := step_cases h
  · exact step_of_terminal hn
  · exact step_eq_raise_of_fetch hs hc
  · have hexec : step (s.altered g k earlier) = exec i (s.altered g k earlier) := step_eq_exec hs hi
    rw [hexec, exec_eq_settle, settle_eq_next_iff]
    obtain hok | ⟨c, hc, rfl⟩ := exec_cases he
    · exact .inl (effect_altered_ok hfits hinput hok)
    · exact .inr ⟨c, effect_altered_error (hover _ rfl) hinput hexhausted hc, rfl⟩

end

end Sys2Proof.Machine
end

section
/-!
SUPPORT. The proofs of the statements about what has no influence on a step (10_state.md section 5, 40_arithmetic.md
section 2).
-/
namespace Sys2Proof.Proofs

open Machine

/-- Settles O39: everything fits the unbounded width, and only an overflow depends on what does not fit. -/
theorem finiteWidthRefinesUnbounded : Obligations.FiniteWidthRefinesUnbounded := by
  intro s t h hover
  exact step_altered (g := fun _ => none) (k := 0) (earlier := []) (fun _ _ => rfl)
    (fun r hr hkind => absurd hkind (hover r hr)) (fun _ hv => hv) (fun _ => rfl) h

/-- Settles O42: the values before `OUT_LOG` stay before it. -/
theorem outLogHasNoInfluence : Obligations.OutLogHasNoInfluence := by
  intro s t earlier h
  exact step_altered (g := id) (k := 0) (fun _ hf => hf) (fun _ _ _ _ hf => hf) (fun _ hv => hv) (fun _ => rfl) h

theorem inputAt_constant (v : Int) (i : Nat) : inputAt { given := [], tail := .constant v } i = some v := rfl

/-- Settles O43: a constant input has the same value at every position. -/
theorem constantInputHidesItsPosition : Obligations.ConstantInputHidesItsPosition := by
  intro s t v k hinput h
  have hconst : ∀ i, inputAt s.params.input i = some v := fun i => by rw [hinput, inputAt_constant]
  refine step_altered (g := id) (earlier := []) (fun _ hf => hf) (fun _ _ _ _ hf => hf) (fun w hw => ?_)
    (fun hnone => ?_) h
  · rw [hconst] at hw ⊢
    exact hw
  · rw [hconst] at hnone
    cases hnone

end Sys2Proof.Proofs
end

section
/-!
SUPPORT. The word at `PC` is memory like any other cell (20_memory.md section 4): a word stored there is what is
fetched, and a word changed there is seen by the fetch, and by an operand only where a source addresses it.
-/
namespace Sys2Proof.Machine

theorem atInstr_of_stored {t : State} {m : Memory} {j : Instr} (hmem : t.mem = m.write t.pc (encode j))
    (hcell : (m.read t.pc).isSome = true) : AtInstr t j := by
  obtain ⟨w, hw⟩ := Option.isSome_iff_exists.1 hcell
  exact ⟨encode j, by rw [hmem, Memory.read_write_same, hw]; rfl, decode_encode j⟩

/-- A word that ADD or MUL stores just ahead is executed by the next step. -/
theorem aluInstr_stores_next {op : Int → Int → Int} {m1 m2 : Mode} {s : State} {j : Instr} {a b : Int}
    (hs : s.status = .running) (hfit : fitsCell s.params.width (encode j) = true) (ha : OperandReads s 1 m1 a)
    (hb : OperandReads s 2 m2 b) (hd : DestIs s 3 (s.pc + 4)) (hop : op a b = encode j) :
    ∃ t, settle s (aluInstr op m1 m2 s) = .next t ∧ step t = exec j t := by
  have hcell := hd.2
  refine ⟨_, settle_aluInstr_completes a b _ ha hb hd (hop ▸ hfit), step_eq_exec hs ?_⟩
  rw [hop]
  exact atInstr_of_stored rfl hcell

theorem Memory.write_write (m : Memory) (a : Nat) (v w : Int) : (m.write a v).write a w = m.write a w := by
  induction m with
  | nil => rfl
  | cons x m ih =>
    obtain ⟨k, y⟩ := x
    by_cases h : k = a <;> simp [Memory.write, h, ih]

/-- The same write keeps two memories alike outside one cell. -/
theorem Memory.read_write_congr {m m' : Memory} {a d x : Nat} (v : Int) (h : ∀ x, x ≠ a → m.read x = m'.read x)
    (hx : x ≠ a) : (m.write d v).read x = (m'.write d v).read x := by
  by_cases hxd : x = d
  · subst hxd
    rw [Memory.read_write_same, Memory.read_write_same, h x hx]
  · rw [Memory.read_write_other m v hxd, Memory.read_write_other m' v hxd, h x hx]

section
variable {s : State} {k : Nat} {m : Mode} (w : Int)

theorem read_slot_writeCell_pc (hk : 1 ≤ k) :
    (s.writeCell s.pc w).mem.read ((s.writeCell s.pc w).pc + k) = s.mem.read (s.pc + k) :=
  Memory.read_write_other s.mem w (by rw [State.writeCell_pc]; omega)

theorem cellAt_writeCell_of_ne {a : Nat} {p : Int} (h : p ≠ a) : cellAt (s.writeCell a w) p = cellAt s p := by
  unfold cellAt
  split
  next hp => exact Memory.read_write_other s.mem w (by omega)
  next => rfl

theorem cellAt_writeCell_eq_none {a : Nat} {p : Int} (h : cellAt s p = none) : cellAt (s.writeCell a w) p = none := by
  by_cases hp : p = a
  · subst hp
    rw [cellAt_natCast] at h ⊢
    rw [State.writeCell_mem, Memory.read_write_same, h]
    rfl
  · rw [cellAt_writeCell_of_ne w hp, h]

theorem operandReads_writeCell_pc {v : Int} (hk : 1 ≤ k) (hparam : s.mem.read (s.pc + k) ≠ some (s.pc : Int))
    (h : OperandReads s k m v) : OperandReads (s.writeCell s.pc w) k m v := by
  obtain ⟨p, hp, hv⟩ := h
  refine ⟨p, (read_slot_writeCell_pc w hk).trans hp, ?_⟩
  cases m with
  | immediate => exact hv
  | position => exact (cellAt_writeCell_of_ne w fun heq => hparam (heq ▸ hp)).trans hv

theorem operandFaultsAt_writeCell_pc {a : Int} (hk : 1 ≤ k) (h : OperandFaultsAt s k m a) :
    OperandFaultsAt (s.writeCell s.pc w) k m a := by
  unfold OperandFaultsAt at h ⊢
  rw [read_slot_writeCell_pc w hk]
  exact h.imp_right fun ⟨hm, hp, hcell⟩ => ⟨hm, hp, cellAt_writeCell_eq_none w hcell⟩

theorem destIs_writeCell_pc {d : Nat} (hk : 1 ≤ k) (h : DestIs s k d) : DestIs (s.writeCell s.pc w) k d := by
  obtain ⟨hslot, hcell⟩ := h
  exact ⟨(read_slot_writeCell_pc w hk).trans hslot, (Memory.read_write_isSome s.mem s.pc d w).trans hcell⟩

end

/-- The two states agree but on the value of the cell `a` and on the parameters. -/
def AgreeOff (a : Nat) (t u : State) : Prop :=
  t.pc = u.pc ∧ t.status = u.status ∧ t.fault = u.fault ∧ t.inPos = u.inPos ∧ t.outLog = u.outLog ∧
    ∀ x, x ≠ a → t.mem.read x = u.mem.read x

/-- The instruction `i` ends alike in `s` and where the word at `PC` is `w`. -/
def EndsAlike (i : Instr) (s : State) (w : Int) : Prop :=
  ∃ t u, exec i s = .next t ∧ exec i (s.writeCell s.pc w) = .next u ∧ AgreeOff s.pc t u

theorem endsAlike_of_ok {i : Instr} {s t u : State} {w : Int} (h : effect i s = .ok t)
    (h' : effect i (s.writeCell s.pc w) = .ok u) (hagree : AgreeOff s.pc t u) : EndsAlike i s w := by
  refine ⟨t, u, ?_, ?_, hagree⟩
  · rw [exec_eq_settle, h]
    rfl
  · rw [exec_eq_settle, h']
    rfl

theorem endsAlike_of_error {i : Instr} {s : State} {w : Int} {c : Cause} (h : effect i s = .error c)
    (h' : effect i (s.writeCell s.pc w) = .error c) : EndsAlike i s w := by
  refine ⟨s.raise c, (s.writeCell s.pc w).raise c, ?_, ?_, rfl, rfl, rfl, rfl, rfl, fun x hx => ?_⟩
  · rw [exec_eq_settle, h]
    rfl
  · rw [exec_eq_settle, h']
    rfl
  · exact (Memory.read_write_other s.mem w hx).symm

theorem agreeOff_writeCell (s : State) (d : Nat) (v w : Int) :
    AgreeOff s.pc (s.writeCell d v) ((s.writeCell s.pc w).writeCell d v) :=
  ⟨rfl, rfl, rfl, rfl, rfl, fun _ => Memory.read_write_congr v fun _ hx => (Memory.read_write_other s.mem w hx).symm⟩

theorem AgreeOff.advance {a : Nat} {t u : State} (h : AgreeOff a t u) (n : Nat) :
    AgreeOff a (t.advance n) (u.advance n) := by
  obtain ⟨hpc, hrest⟩ := h
  exact ⟨congrArg (· + n) hpc, hrest⟩

/-- ADD and MUL end alike where no source addresses the word at `PC`. -/
theorem endsAlike_alu {op : Int → Int → Int} {m1 m2 : Mode} {i : Instr} {s : State} (w : Int)
    (heffect : ∀ s, effect i s = aluInstr op m1 m2 s) (hparam1 : s.mem.read (s.pc + 1) ≠ some (s.pc : Int))
    (hparam2 : s.mem.read (s.pc + 2) ≠ some (s.pc : Int)) : EndsAlike i s w := by
  have source1 : ∀ {a}, OperandReads s 1 m1 a → OperandReads (s.writeCell s.pc w) 1 m1 a :=
    operandReads_writeCell_pc w (by decide) hparam1
  have source2 : ∀ {b}, OperandReads s 2 m2 b → OperandReads (s.writeCell s.pc w) 2 m2 b :=
    operandReads_writeCell_pc w (by decide) hparam2
  cases h : effect i s with
  | ok t =>
    obtain ⟨a, b, d, ha, hb, hd, hf, rfl⟩ := aluInstr_eq_ok_iff.1 (heffect s ▸ h)
    refine endsAlike_of_ok h ?_ ((agreeOff_writeCell s d (op a b) w).advance 4)
    exact (heffect _).trans (aluInstr_eq_ok_iff.2
      ⟨a, b, d, source1 ha, source2 hb, destIs_writeCell_pc w (by decide) hd, hf, rfl⟩)
  | error c =>
    refine endsAlike_of_error h ?_
    rw [heffect] at h ⊢
    refine aluInstr_eq_error_iff.2 ?_
    obtain ⟨x, hx, hc⟩ | ⟨a, ha, ⟨x, hx, hc⟩ | ⟨b, hb, ⟨x, hx, hc⟩ | ⟨d, hd, hf, hc⟩⟩⟩ := aluInstr_eq_error_iff.1 h
    · exact .inl ⟨x, operandFaultsAt_writeCell_pc w (by decide) hx, hc⟩
    · exact .inr ⟨a, source1 ha, .inl ⟨x, operandFaultsAt_writeCell_pc w (by decide) hx, hc⟩⟩
    · exact .inr ⟨a, source1 ha, .inr ⟨b, source2 hb, .inl ⟨x, operandFaultsAt_writeCell_pc w (by decide) hx, hc⟩⟩⟩
    · exact .inr ⟨a, source1 ha, .inr ⟨b, source2 hb, .inr ⟨d, destIs_writeCell_pc w (by decide) hd, hf, hc⟩⟩⟩

/-- IN ends alike whatever the word at `PC`. -/
theorem endsAlike_inp (m1 : Mode) (s : State) (w : Int) : EndsAlike (.inp m1) s w := by
  cases h : effect (.inp m1) s with
  | ok t =>
    obtain ⟨d, v, hd, hv, hf, rfl⟩ := inputInstr_eq_ok_iff.1 h
    exact endsAlike_of_ok h (inputInstr_eq_ok_iff.2 ⟨d, v, destIs_writeCell_pc w le_rfl hd, hv, hf, rfl⟩)
      ((agreeOff_writeCell s.consumeInput d v w).advance 2)
  | error c =>
    refine endsAlike_of_error h (inputInstr_eq_error_iff.2 ?_)
    obtain ⟨x, hx, hc⟩ | ⟨d, hd, hchannel⟩ := inputInstr_eq_error_iff.1 h
    · exact .inl ⟨x, operandFaultsAt_writeCell_pc w le_rfl hx, hc⟩
    · exact .inr ⟨d, destIs_writeCell_pc w le_rfl hd, hchannel⟩

theorem step_writeCell_encode {s : State} (hs : s.status = .running) (hcell : (s.mem.read s.pc).isSome = true)
    (i : Instr) : step (s.writeCell s.pc (encode i)) = exec i (s.writeCell s.pc (encode i)) :=
  step_eq_exec (s := s.writeCell s.pc (encode i)) hs (atInstr_of_stored rfl hcell)

theorem State.writeCell_writeCell (s : State) (a : Nat) (v w : Int) :
    (s.writeCell a v).writeCell a w = s.writeCell a w := by
  simp only [State.writeCell, Memory.write_write]

/-- Two instructions that execute alike, one at `PC` for the other, step alike. -/
theorem step_writeCell_agree {s : State} {i j : Instr} (hs : s.status = .running)
    (hcell : (s.mem.read s.pc).isSome = true) (hexec : ∀ s, exec j s = exec i s)
    (h : EndsAlike i (s.writeCell s.pc (encode i)) (encode j)) :
    ∃ t u, step (s.writeCell s.pc (encode i)) = .next t ∧ step (s.writeCell s.pc (encode j)) = .next u ∧
      AgreeOff s.pc t u := by
  obtain ⟨t, u, ht, hu, hagree⟩ := h
  rw [State.writeCell_pc, State.writeCell_writeCell, ← hexec] at hu
  exact ⟨t, u, (step_writeCell_encode hs hcell i).trans ht, (step_writeCell_encode hs hcell j).trans hu, hagree⟩

end Sys2Proof.Machine
end

section
/-!
SUPPORT. The proofs of the statements about the word at `PC` (20_memory.md section 4, 30_encoding.md section 2).
-/
namespace Sys2Proof.Proofs

open Machine

/-- Settles O40: the stored word is at `PC` of the state the instruction leaves. -/
theorem storedWordIsFetchedNext : Obligations.StoredWordIsFetchedNext := by
  intro s j hs hfit
  refine ⟨fun _ _ _ _ _ => aluInstr_stores_next hs hfit, fun _ _ _ _ _ => aluInstr_stores_next hs hfit,
    fun m1 hd hv => ?_⟩
  obtain ⟨-, hcomplete, -⟩ := inStoresTheNextInput m1 s
  have hcell := hd.2
  exact ⟨_, hcomplete _ _ hd hv hfit, step_eq_exec hs (atInstr_of_stored rfl hcell)⟩

/-- Settles O41: the two instructions execute alike, and neither reads the word at `PC`. -/
theorem destinationDigitIsNotApplied : Obligations.DestinationDigitIsNotApplied := by
  intro s i j hs hcell h
  obtain ⟨m1, m2, m3, m3', hij, hparam1, hparam2⟩ | ⟨m1, m1', rfl, rfl⟩ := h
  · have hslot : ∀ k, 1 ≤ k → s.mem.read (s.pc + k) ≠ some (s.pc : Int) →
        (s.writeCell s.pc (encode i)).mem.read (s.pc + k) ≠ some (s.pc : Int) := fun k hk hne => by
      rwa [State.writeCell_mem, Memory.read_write_other _ _ (by omega)]
    have hparam1 := hslot 1 le_rfl hparam1
    have hparam2 := hslot 2 (by decide) hparam2
    obtain ⟨rfl, rfl⟩ | ⟨rfl, rfl⟩ := hij
    · exact step_writeCell_agree hs hcell (fun _ => rfl) (endsAlike_alu _ (fun _ => rfl) hparam1 hparam2)
    · exact step_writeCell_agree hs hcell (fun _ => rfl) (endsAlike_alu _ (fun _ => rfl) hparam1 hparam2)
  · exact step_writeCell_agree hs hcell (fun _ => rfl) (endsAlike_inp m1 _ _)

end Sys2Proof.Proofs
end
